-- ==== Sys2Proof/Word.lean ====
section
/-! DEFINITION. The cell of the CORE: a signed 64-bit value (00_scope.md R10, 20_memory.md R41). -/

namespace Sys2Proof

/-- A memory cell, a queue entry, the relative base: 64 bits, read as a signed integer by
`BitVec.toInt` (00_scope.md R10). -/
abbrev Word := BitVec 64

/-- `wrap64(v)` of 00_scope.md §5: the one 64-bit value congruent to `v` modulo 2^64
(41_arithmetic.md R112). Its range and two's complement are PRESUMED, log entry 11. -/
def wrap64 (v : Int) : Word := BitVec.ofInt 64 v

end Sys2Proof
end

