-- ==== Sys2Proof/Config.lean ====
section
/-! DEFINITION. The implementation parameters of 00_scope.md R10. -/

namespace Sys2Proof

/-- IMM_WRITE: what a destination parameter in Immediate mode does (30_encoding.md R69, R73). -/
inductive ImmWrite where
  | fault
  | asPosition
  deriving DecidableEq, Repr, Inhabited

/-- HIGH_DIGITS: what decimal digits at place 10^5 and above do (30_encoding.md R76). -/
inductive HighDigits where
  | ignore
  | fault
  deriving DecidableEq, Repr, Inhabited

/-- The three parameters that 00_scope.md R10 leaves OPEN. -/
structure Config where
  /-- MEM_CEILING, the ceiling of the construction-time padding (20_memory.md R46). -/
  memCeiling : Nat
  immWrite : ImmWrite
  highDigits : HighDigits
  deriving DecidableEq, Repr, Inhabited

/-- The default values of R10 for the two switches, at a ceiling the caller names (R10 gives no
value for it). -/
def Config.defaults (ceiling : Nat) : Config :=
  { memCeiling := ceiling, immWrite := .fault, highDigits := .ignore }

/-- The parameters of the CORE at hand. It has no body: nothing proved about the machine can rest
on a value of it, so every statement holds for each of its values (92_eei_decisions.md D1: "Claims
quantify over it or name it"). DESIGN CHOICE, log entry 3. -/
opaque Config.chosen : Config

end Sys2Proof
end

