-- ==== Sys2Proof/Syntax.lean ====
section
/-! DEFINITION. The ten instructions of 30_encoding.md R66, after decoding. -/

namespace Sys2Proof

/-- The addressing modes of 30_encoding.md R65. -/
inductive Mode where
  | position
  | immediate
  | relative
  deriving DecidableEq, Repr, Inhabited

/-- A parameter's role (30_encoding.md R66: "R" a read parameter, "W" a destination parameter). -/
inductive Role where
  | read
  | destination
  deriving DecidableEq, Repr

/-- The finite operation enumeration of 40_engine.md R106, in the order of 30_encoding.md R66. -/
inductive Operation where
  | add | mul | inp | out | jt | jf | lt | eq | arb | halt
  deriving DecidableEq, Repr

/-- One instruction as its opcode word gives it: the operation and the addressing mode of each
parameter the operation has (30_encoding.md R63, R66). The parameter WORDS are no part of it: they
are fetched while the instruction executes, in the order of R70, and IN fetches none while its
queue is empty (44_io.md R142). The constructor of IN is `inp`. -/
inductive Instr where
  | add (a b dst : Mode)
  | mul (a b dst : Mode)
  | inp (dst : Mode)
  | out (a : Mode)
  | jt (cond target : Mode)
  | jf (cond target : Mode)
  | lt (a b dst : Mode)
  | eq (a b dst : Mode)
  | arb (a : Mode)
  | halt
  deriving DecidableEq, Repr

/-- The operation of an instruction. -/
def Instr.operation : Instr → Operation
  | .add _ _ _ => .add
  | .mul _ _ _ => .mul
  | .inp _ => .inp
  | .out _ => .out
  | .jt _ _ => .jt
  | .jf _ _ => .jf
  | .lt _ _ _ => .lt
  | .eq _ _ _ => .eq
  | .arb _ => .arb
  | .halt => .halt

/-- The modes of the parameters, parameter 1 first. -/
def Instr.modes : Instr → List Mode
  | .add a b d => [a, b, d]
  | .mul a b d => [a, b, d]
  | .inp d => [d]
  | .out a => [a]
  | .jt c t => [c, t]
  | .jf c t => [c, t]
  | .lt a b d => [a, b, d]
  | .eq a b d => [a, b, d]
  | .arb a => [a]
  | .halt => []

/-- The mode of the destination parameter, for an operation that has one (30_encoding.md R66). -/
def Instr.destination : Instr → Option Mode
  | .add _ _ d => some d
  | .mul _ _ d => some d
  | .inp d => some d
  | .out _ => none
  | .jt _ _ => none
  | .jf _ _ => none
  | .lt _ _ d => some d
  | .eq _ _ d => some d
  | .arb _ => none
  | .halt => none

end Sys2Proof
end

