-- ==== Sys2Proof/WellFormed.lean ====
section
/-! DEFINITION. Which instructions an opcode word can stand for (30_encoding.md R73). -/

namespace Sys2Proof

/-- Under IMM_WRITE = `w`: "a destination parameter accepts modes 0 and 2, and also 1 when
IMM_WRITE = AsPosition" (30_encoding.md R73). A read parameter accepts all three modes. -/
def Instr.wellFormedUnder (w : ImmWrite) (i : Instr) : Bool :=
  i.destination != some .immediate || w == .asPosition

/-- Well-formed for the CORE at hand. -/
def WellFormed (i : Instr) : Bool := i.wellFormedUnder Config.chosen.immWrite

end Sys2Proof
end

