-- ==== Sys2Proof/Decode.lean ====
section
/-! DEFINITION. The decimal fields of an opcode word, the operation map, the decoder (total, every
refusal with a name) and the encoder: 30_encoding.md. -/

namespace Sys2Proof

/-- `tdiv` of 00_scope.md §5: division truncated toward zero. -/
def tdiv (a b : Int) : Int := Int.tdiv a b

/-- `trem` of 00_scope.md §5: the remainder of `tdiv`, of the sign of `a` or 0. -/
def trem (a b : Int) : Int := Int.tmod a b

/-- `digit(w, k)` of 00_scope.md §5: the decimal digit at place 10^k, negative for a negative `w`. -/
def digit (w : Int) (k : Nat) : Int := trem (tdiv w ((10 ^ k : Nat) : Int)) 10

/-- The fields of an opcode word (30_encoding.md R62). -/
structure Fields where
  op : Int
  m1 : Int
  m2 : Int
  m3 : Int
  hi : Int
  deriving DecidableEq, Repr

/-- `decode(w)` of 30_encoding.md R63, pure and total. -/
def fields (w : Word) : Fields :=
  { op := trem w.toInt 100
    m1 := digit w.toInt 2
    m2 := digit w.toInt 3
    m3 := digit w.toInt 4
    hi := tdiv w.toInt 100000 }

/-- The OP value of an operation (30_encoding.md R66). -/
def Operation.code : Operation → Nat
  | .add => 1
  | .mul => 2
  | .inp => 3
  | .out => 4
  | .jt => 5
  | .jf => 6
  | .lt => 7
  | .eq => 8
  | .arb => 9
  | .halt => 99

/-- The roles of the parameters an operation has, parameter 1 first (30_encoding.md R66). -/
def Operation.roles : Operation → List Role
  | .add => [.read, .read, .destination]
  | .mul => [.read, .read, .destination]
  | .inp => [.destination]
  | .out => [.read]
  | .jt => [.read, .read]
  | .jf => [.read, .read]
  | .lt => [.read, .read, .destination]
  | .eq => [.read, .read, .destination]
  | .arb => [.read]
  | .halt => []

/-- `L(op)` in cells: one plus the number of parameters (30_encoding.md R61). -/
def Operation.length (o : Operation) : Nat := o.roles.length + 1

/-- The operation of an OP value; none for every value outside the map (30_encoding.md R72). -/
def operationOf (op : Int) : Option Operation :=
  if op = 1 then some .add
  else if op = 2 then some .mul
  else if op = 3 then some .inp
  else if op = 4 then some .out
  else if op = 5 then some .jt
  else if op = 6 then some .jf
  else if op = 7 then some .lt
  else if op = 8 then some .eq
  else if op = 9 then some .arb
  else if op = 99 then some .halt
  else none

/-- Why an opcode word is refused. Each of the three is reported as `UnsupportedOpcode`
(60_exceptions.md R202). -/
inductive DecodeRefusal where
  /-- OP is not in the operation map (30_encoding.md R72). -/
  | unsupportedOperation
  /-- HI is not 0 under HIGH_DIGITS = Fault (30_encoding.md R76). -/
  | highDigits
  /-- The mode digit of this existing parameter is illegal for its role (30_encoding.md R73). -/
  | illegalMode (parameter : Nat)
  deriving DecidableEq, Repr

/-- The mode of a digit; none for 3 to 9 and for a negative digit (30_encoding.md R65). -/
def modeOf (d : Int) : Option Mode :=
  if d = 0 then some .position
  else if d = 1 then some .immediate
  else if d = 2 then some .relative
  else none

/-- The check of a read parameter's mode digit (30_encoding.md R73). -/
def readMode (k : Nat) (d : Int) : Except DecodeRefusal Mode :=
  match modeOf d with
  | some m => .ok m
  | none => .error (.illegalMode k)

/-- The check of a destination parameter's mode digit: Immediate is legal only under
IMM_WRITE = AsPosition (30_encoding.md R73). -/
def destMode (c : Config) (k : Nat) (d : Int) : Except DecodeRefusal Mode :=
  match modeOf d with
  | some .immediate =>
    match c.immWrite with
    | .asPosition => .ok .immediate
    | .fault => .error (.illegalMode k)
  | some m => .ok m
  | none => .error (.illegalMode k)

/-- HIGH_DIGITS = Fault refuses a word whose HI is not 0 (30_encoding.md R76). -/
def highDigitsRefused (c : Config) (f : Fields) : Bool :=
  decide (f.hi ≠ 0) && decide (c.highDigits = .fault)

/-- The instruction of an operation and the mode digits, checked for parameter 1, then 2, then 3,
for the parameters the operation has and no other (30_encoding.md R73, R74). -/
def instrOf (c : Config) (f : Fields) : Operation → Except DecodeRefusal Instr
  | .add => do return .add (← readMode 1 f.m1) (← readMode 2 f.m2) (← destMode c 3 f.m3)
  | .mul => do return .mul (← readMode 1 f.m1) (← readMode 2 f.m2) (← destMode c 3 f.m3)
  | .inp => do return .inp (← destMode c 1 f.m1)
  | .out => do return .out (← readMode 1 f.m1)
  | .jt => do return .jt (← readMode 1 f.m1) (← readMode 2 f.m2)
  | .jf => do return .jf (← readMode 1 f.m1) (← readMode 2 f.m2)
  | .lt => do return .lt (← readMode 1 f.m1) (← readMode 2 f.m2) (← destMode c 3 f.m3)
  | .eq => do return .eq (← readMode 1 f.m1) (← readMode 2 f.m2) (← destMode c 3 f.m3)
  | .arb => do return .arb (← readMode 1 f.m1)
  | .halt => .ok .halt

/-- The decoder under the parameters `c`: the operation check, then the HI check, then the mode
checks (40_engine.md R94, 60_exceptions.md R207). -/
def decodeWord (c : Config) (w : Word) : Except DecodeRefusal Instr :=
  match operationOf (fields w).op with
  | none => .error .unsupportedOperation
  | some o =>
    if highDigitsRefused c (fields w) then .error .highDigits
    else instrOf c (fields w) o

/-- The digit of a mode (30_encoding.md R65). -/
def Mode.digit : Mode → Nat
  | .position => 0
  | .immediate => 1
  | .relative => 2

/-- The decimal number of a list of mode digits, parameter 1 in the lowest place. -/
def modeDigits : List Mode → Nat
  | [] => 0
  | m :: rest => m.digit + 10 * modeDigits rest

/-- The opcode word of an instruction, `op + 100·m1 + 1000·m2 + 10000·m3`, with 0 for a parameter it
lacks (30_encoding.md R77). -/
def encodeWord (i : Instr) : Word :=
  BitVec.ofNat 64 (i.operation.code + 100 * modeDigits i.modes)

/-- The cells of an instruction: its opcode word and as many parameter words as it has
(30_encoding.md R60). -/
def encode (i : Instr) (raws : List Word) : List Word :=
  encodeWord i :: raws.take i.modes.length

/-- The cells of an instruction whose bits are `w`, as `spec/opcode_table.json`'s reader numbers
them: bit 0 the least significant bit of the first cell, a later cell's bits counting on from it,
every bit from `nbits` up 0. Four cells, the longest instruction (30_encoding.md R61). -/
def tableCells (nbits w : Nat) : List Word :=
  let v := w % 2 ^ nbits
  [BitVec.ofNat 64 v, BitVec.ofNat 64 (v / 2 ^ 64), BitVec.ofNat 64 (v / 2 ^ 128),
    BitVec.ofNat 64 (v / 2 ^ 192)]

/-- The instruction the decoder reads from a table row's bits. A cell is one number, so no byte
order is chosen (20_memory.md R42). -/
def decodeTableWord (nbits w : Nat) : Option Instr :=
  match decodeWord Config.chosen ((tableCells nbits w).headD 0) with
  | .ok i => some i
  | .error _ => none

end Sys2Proof
end

