-- ==== Sys2Proof/Machine/State.lean ====
section
/-! DEFINITION. The state of one CORE (10_state.md R20), its faults and refusals, and its state after
reset. -/

namespace Sys2Proof.Machine

/-- The execution state (10_state.md R26). -/
inductive ExecState where
  | notStarted
  | running
  | awaitingInput
  | halted
  deriving DecidableEq, Repr, Inhabited

/-- The linear memory (20_memory.md R40, R41): `len` cells of 64 bits, addressed by cell. `cells`
lists the cells that do not hold 0, by strictly rising address; a cell below `len` that is not
listed holds 0, the value of the padding (20_memory.md R49). DEDUCED, log entry 1. -/
structure Memory where
  len : Nat
  cells : List (Nat × Word)
  deriving DecidableEq, Repr, Inhabited

/-- The listed cells are in canonical form from address `lo` on: strictly rising addresses, each
below `len`, no entry equal to what an unlisted cell reads as. -/
def cellsOk (len : Nat) : Nat → List (Nat × Word) → Bool
  | _, [] => true
  | lo, (a, v) :: rest => decide (lo ≤ a) && decide (a < len) && decide (v ≠ 0#64) && cellsOk len (a + 1) rest

/-- The canonical form of memory: equal memories are equal data. -/
def Memory.wf (m : Memory) : Bool := cellsOk m.len 0 m.cells

/-- The two fatal error kinds and their records (60_exceptions.md R200, R203). A step that raises
one ends in it: there is no handler and no state after it (R208). -/
inductive Fault where
  /-- Raised by the opcode fetch, by a parameter-word fetch, by an operand read, by a destination
  check and by a taken jump to a negative target, when the address is outside memory
  (60_exceptions.md R201). `ip` is the address of the instruction's opcode word. SAFE: it is the
  spec's own outcome. -/
  | invalidAddress (ip : Nat) (address : Int)
  /-- Raised by the decode of an opcode word that stands for no instruction (60_exceptions.md
  R202). `op` is `trem(word, 100)`. SAFE: it is the spec's own outcome. -/
  | unsupportedOpcode (ip : Nat) (word : Word) (op : Int)
  deriving DecidableEq, Repr

/-- Why a step or a host transaction has no meaning. -/
inductive Refusal where
  /-- Raised by an arm of `exec` that has no meaning yet. No arm raises it. SAFE. -/
  | notModelled (mnemonic : String)
  /-- Raised by `step`, and by every host transaction but `inspect_memory`, on a CORE whose `fault`
  is not none: such a CORE must be discarded (40_engine.md R93, 46_host_interface.md R178). SAFE: it
  is the spec's own refusal. -/
  | discarded
  deriving DecidableEq, Repr

/-- The state vector of 10_state.md R20, exactly its seven elements. -/
structure State where
  /-- The linear memory (20_memory.md). -/
  mem : Memory
  /-- The instruction pointer: the address of the opcode word of the instruction being executed, a
  natural number of no architectural width (10_state.md R22, R24). -/
  ip : Nat
  /-- The relative base (10_state.md R25). -/
  rb : Word
  /-- The execution state (10_state.md R26). -/
  state : ExecState
  /-- The Input Queue, its head first (10_state.md R28). -/
  inq : List Word
  /-- The Output Queue, its head first (10_state.md R29). -/
  outq : List Word
  /-- The fatal-error latch (10_state.md R30). -/
  fault : Option Fault
  deriving DecidableEq, Repr, Inhabited

/-- The state after reset. Construction is the only reset (70_reset_and_hazards.md R220) and takes a
program; this is the construction of the empty program without padding, so nothing is listed and
`len` is 0 (DESIGN CHOICE, log entry 2). Every other element is as 10_state.md R33 says. `State.new`
(Machine/Ops.lean) is construction from any program. -/
def State.reset : State :=
  { mem := { len := 0, cells := [] }
    ip := 0
    rb := 0#64
    state := .notStarted
    inq := []
    outq := []
    fault := none }

end Sys2Proof.Machine

namespace Sys2Proof

/-- What a CORE's state elements are after the fatal error `e` raised from the state `s`: the spec
says they are unspecified (10_state.md R30, 60_exceptions.md R208). It has no body: a FREE VALUE.
DEDUCED, log entry 4. -/
opaque Config.afterFault (e : Machine.Fault) (s : Machine.State) : Machine.State

/-- What `inspect_memory` gives at an address of a CORE after a fatal error: "any value"
(46_host_interface.md R178, R179; 93_implementation_defined.md U1). It has no body: a FREE VALUE.
DEDUCED, log entry 4. -/
opaque Config.inspectAfterFault (s : Machine.State) (address : Int) : Option Word

end Sys2Proof
end

