-- ==== Sys2Proof/Machine/Ops.lean ====
section
/-! DEFINITION. The named operations over the state: memory, queues, the instruction pointer, errors,
construction, what a step request does first, and fetching an instruction. -/

namespace Sys2Proof.Machine

/-- The outcomes of a step of this machine. -/
abbrev StepOutcome := Host.Outcome State Fault Refusal

/-! ### One update per element -/

def State.setMem (m : Memory) (s : State) : State := { s with mem := m }
def State.setIp (v : Nat) (s : State) : State := { s with ip := v }
def State.setRb (v : Word) (s : State) : State := { s with rb := v }
def State.setState (x : ExecState) (s : State) : State := { s with state := x }
def State.setInq (q : List Word) (s : State) : State := { s with inq := q }
def State.setOutq (q : List Word) (s : State) : State := { s with outq := q }
def State.setFault (f : Option Fault) (s : State) : State := { s with fault := f }

/-- The 2-bit code of the execution state (10_state.md R27). No rule depends on it. -/
def ExecState.code : ExecState → BitVec 2
  | .notStarted => 0
  | .running => 1
  | .awaitingInput => 2
  | .halted => 3

/-! ### Memory as data -/

/-- The value listed for address `k`, else 0. -/
def lookupCell (k : Nat) : List (Nat × Word) → Word
  | [] => 0#64
  | (a, v) :: rest => if a = k then v else lookupCell k rest

/-- The listing with the entry of `k` replaced by `v`; storing 0 leaves no entry. -/
def storeCell (k : Nat) (v : Word) : List (Nat × Word) → List (Nat × Word)
  | [] => if v = 0#64 then [] else [(k, v)]
  | (a, u) :: rest =>
    if k < a then (if v = 0#64 then (a, u) :: rest else (k, v) :: (a, u) :: rest)
    else if k = a then (if v = 0#64 then rest else (k, v) :: rest)
    else (a, u) :: storeCell k v rest

/-- The listing of a sequence of cells that starts at address `base`. -/
def listCells : Nat → List Word → List (Nat × Word)
  | _, [] => []
  | base, v :: rest => if v = 0#64 then listCells (base + 1) rest else (base, v) :: listCells (base + 1) rest

/-- Cell `a` of memory, for an address below `len`. -/
def Memory.cell (m : Memory) (a : Nat) : Word := lookupCell a m.cells

/-- Memory with cell `a` replaced by `v`; `len` and every other cell stay (20_memory.md R45). -/
def Memory.store (m : Memory) (a : Nat) (v : Word) : Memory :=
  { m with cells := storeCell a v m.cells }

/-- The bounds test of 20_memory.md R44 and R45, on an address computed as an unbounded integer. -/
def Memory.contains (m : Memory) (a : Int) : Bool := decide (0 ≤ a) && decide (a < m.len)

/-- The resize logic of construction (20_memory.md R46): the program, padded with zeros to the
ceiling where padding is asked for and the program is shorter. -/
def Memory.construct (ceiling : Nat) (program : List Word) (pad : Bool) : Memory :=
  { len := if pad && decide (program.length < ceiling) then ceiling else program.length
    cells := listCells 0 program }

/-! ### Errors

An error has no entry: no vector, no handler, no saved register, no mode change (60_exceptions.md
R208), and there is no return from one (R210). Raising ends the step with the record, and the latch
is what the CORE holds afterwards. -/

/-- `raise InvalidAddress(ip, a)` (60_exceptions.md R203). -/
def raiseInvalidAddress {α : Type} (s : State) (a : Int) : Except Fault α :=
  .error (.invalidAddress s.ip a)

/-- `raise UnsupportedOpcode(ip, w, op)`, with `op = trem(w, 100)` (60_exceptions.md R203). -/
def raiseUnsupportedOpcode {α : Type} (s : State) (w : Word) : Except Fault α :=
  .error (.unsupportedOpcode s.ip w (fields w).op)

/-- The CORE after the error `e` raised from `s`: `fault` latches the record, and every other
element is unspecified (10_state.md R30). -/
def State.latch (e : Fault) (s : State) : State := (Config.afterFault e s).setFault (some e)

/-! ### Memory accesses -/

/-- The address `a` if it is inside memory, else `InvalidAddress(ip, a)`. -/
def checkAddress (s : State) (a : Int) : Except Fault Int :=
  if s.mem.contains a then .ok a else raiseInvalidAddress s a

/-- `MemRead(a, 1)` (20_memory.md R44). -/
def memRead (s : State) (a : Int) : Except Fault Word :=
  if s.mem.contains a then .ok (s.mem.cell a.toNat) else raiseInvalidAddress s a

/-- `MemWrite(a, 1, v)` (20_memory.md R45). -/
def memWrite (s : State) (a : Int) (v : Word) : Except Fault State :=
  if s.mem.contains a then .ok (s.setMem (s.mem.store a.toNat v)) else raiseInvalidAddress s a

/-! ### Queues and the instruction pointer -/

/-- `Enq(inq, v)` (00_scope.md §5). -/
def State.pushInput (v : Word) (s : State) : State := s.setInq (s.inq ++ [v])

/-- `Enq(outq, v)` (00_scope.md §5; 44_io.md R144: it always succeeds). -/
def State.pushOutput (v : Word) (s : State) : State := s.setOutq (s.outq ++ [v])

/-- `ip <- ip + L(op)` of a completed instruction (40_engine.md R100). -/
def advance (o : Operation) (s : State) : State := s.setIp (s.ip + o.length)

/-! ### Construction -/

/-- `new(P, pad)` under a ceiling (70_reset_and_hazards.md R220, 10_state.md R33). -/
def State.newWith (ceiling : Nat) (program : List Word) (pad : Bool) : State :=
  { mem := Memory.construct ceiling program pad
    ip := 0
    rb := 0#64
    state := .notStarted
    inq := []
    outq := []
    fault := none }

/-- `new(P, pad)` on the CORE at hand. -/
def State.new (program : List Word) (pad : Bool) : State :=
  State.newWith Config.chosen.memCeiling program pad

/-! ### The step request -/

/-- What a step request comes to before any instruction is fetched (40_engine.md R90). -/
inductive Activity where
  /-- A CORE with a latched fault has no step (40_engine.md R93). -/
  | refuse
  /-- No state element changes (40_engine.md R92, R95). -/
  | idle
  /-- The instruction at `ip` is executed in this state. -/
  | execute (s : State)
  deriving DecidableEq, Repr

/-- The case distinction of `step()` in 40_engine.md R90. -/
def activity (s : State) : Activity :=
  match s.fault with
  | some _ => .refuse
  | none =>
    match s.state with
    | .halted => .idle
    | .notStarted => .execute (s.setState .running)
    | .awaitingInput =>
      match s.inq with
      | [] => .idle
      | _ :: _ => .execute (s.setState .running)
    | .running => .execute s

/-- The fetch and decode of the instruction at `ip`, under the parameters `c` (40_engine.md R94). -/
def fetch (c : Config) (s : State) : Except Fault Instr :=
  match memRead s s.ip with
  | .error e => .error e
  | .ok w =>
    match decodeWord c w with
    | .error _ => raiseUnsupportedOpcode s w
    | .ok i => .ok i

/-- A meaning's result as a step's outcome. -/
def finish : Except Fault State → StepOutcome
  | .ok s => .next s
  | .error e => .fault e

/-- The cells `ws` stored one by one from address `base` on. -/
def Memory.storeAll : Nat → List Word → Memory → Memory
  | _, [], m => m
  | base, w :: rest, m => Memory.storeAll (base + 1) rest (m.store base w)

/-- Memory made long enough to hold the cells `ws` from address `base` on, with them in place. -/
def Memory.place (m : Memory) (base : Nat) (ws : List Word) : Memory :=
  Memory.storeAll base ws { m with len := max m.len (base + ws.length) }

/-- The CORE made ready to execute the instruction at `ip` at the next step: no fault latched, and
a CORE that would stay idle set running. -/
def State.awake (s : State) : State :=
  let t := s.setFault none
  match activity t with
  | .execute _ => t
  | .idle => t.setState .running
  | .refuse => t

end Sys2Proof.Machine
end

