-- ==== Sys2Proof/Machine/Flags.lean ====
section
/-! DEFINITION. The CORE has no flags and no condition codes (10_state.md R21, 41_arithmetic.md R112).
What other machines keep in flags it writes to memory: the 1 or 0 of a comparison, and a jump tests a
cell value. Those computations stand here. -/

namespace Sys2Proof.Machine

/-- `b2i(c)`: 1 if `c` holds, else 0 (00_scope.md §5). -/
def b2i (c : Bool) : Word := if c then 1#64 else 0#64

/-- The result of LT: a signed comparison of values (42_comparison.md R120, R122). -/
def lessBit (a b : Word) : Word := b2i (decide (a.toInt < b.toInt))

/-- The result of EQ (42_comparison.md R121, R122). -/
def equalBit (a b : Word) : Word := b2i (decide (a.toInt = b.toInt))

/-- JT's condition: any value but 0, a negative one included (43_jumps.md R130). -/
def isNonzero (c : Word) : Bool := decide (c.toInt ≠ 0)

/-- JF's condition: 0 and no other value (43_jumps.md R131). -/
def isZero (c : Word) : Bool := decide (c.toInt = 0)

end Sys2Proof.Machine
end

