-- ==== Sys2Proof/Machine/Operands.lean ====
section
/-! DEFINITION. The operand resolver (30_encoding.md R68 to R71), and the two shapes of instruction
that several operations share. -/

namespace Sys2Proof.Machine

/-- `raw(k)`: parameter word `k` of the instruction at `ip` (30_encoding.md R68). -/
def rawParam (k : Nat) (s : State) : Except Fault Word := memRead s ((s.ip + k : Nat) : Int)

/-- The address a parameter word `r` names. Relative: the UNBOUNDED sum `rb + r` (30_encoding.md
R71). Any other mode: the word itself; for a destination in Immediate mode that is the reading
IMM_WRITE = AsPosition gives (R69), and without it no such instruction is decoded (R73). DEDUCED, log
entry 7. -/
def operandAddress (m : Mode) (r : Word) (s : State) : Int :=
  match m with
  | .relative => s.rb.toInt + r.toInt
  | .position => r.toInt
  | .immediate => r.toInt

/-- `readParam(k)` (30_encoding.md R68): the parameter word first, then the operand. -/
def readParam (m : Mode) (k : Nat) (s : State) : Except Fault Word :=
  match rawParam k s with
  | .error e => .error e
  | .ok r =>
    match m with
    | .immediate => .ok r
    | .position => memRead s (operandAddress .position r s)
    | .relative => memRead s (operandAddress .relative r s)

/-- `destParam(k)` (30_encoding.md R69): the checked address of the destination. -/
def destParam (m : Mode) (k : Nat) (s : State) : Except Fault Int :=
  match rawParam k s with
  | .error e => .error e
  | .ok r => checkAddress s (operandAddress m r s)

/-- The four-cell instructions: parameters 1 and 2 are read, parameter 3 is resolved, `f` of the
values is written there, and `ip` advances; all in the order of 30_encoding.md R70. -/
def writeResult (f : Word → Word → Word) (o : Operation) (a b d : Mode) (s : State) :
    Except Fault State :=
  match readParam a 1 s with
  | .error e => .error e
  | .ok x =>
    match readParam b 2 s with
    | .error e => .error e
    | .ok y =>
      match destParam d 3 s with
      | .error e => .error e
      | .ok p =>
        match memWrite s p (f x y) with
        | .error e => .error e
        | .ok t => .ok (advance o t)

/-- The jumps: both parameters are read whether or not the jump is taken; a taken jump to a negative
target raises `InvalidAddress(ip, t)` (43_jumps.md R132). -/
def jumpWhen (taken : Word → Bool) (o : Operation) (c t : Mode) (s : State) : Except Fault State :=
  match readParam c 1 s with
  | .error e => .error e
  | .ok x =>
    match readParam t 2 s with
    | .error e => .error e
    | .ok y =>
      if taken x then
        if y.toInt < 0 then raiseInvalidAddress s y.toInt else .ok (s.setIp y.toInt.toNat)
      else .ok (advance o s)

end Sys2Proof.Machine
end

