-- ==== Sys2Proof/Machine/Arithmetic.lean ====
section
/-! DEFINITION. ADD and MUL (41_arithmetic.md). -/

namespace Sys2Proof.Machine

/-- The wrapped sum (41_arithmetic.md R112). -/
def sum64 (a b : Word) : Word := wrap64 (a.toInt + b.toInt)

/-- The wrapped product (41_arithmetic.md R112). -/
def product64 (a b : Word) : Word := wrap64 (a.toInt * b.toInt)

/-- ADD: `dst = a+b` (41_arithmetic.md R110). -/
def execAdd (a b d : Mode) (s : State) : StepOutcome := finish (writeResult sum64 .add a b d s)

/-- MUL: `dst = a*b` (41_arithmetic.md R111). -/
def execMul (a b d : Mode) (s : State) : StepOutcome := finish (writeResult product64 .mul a b d s)

end Sys2Proof.Machine
end

