-- ==== Sys2Proof/Machine/BaseAndHalt.lean ====
section
/-! DEFINITION. ARB and HALT (45_base_and_halt.md). -/

namespace Sys2Proof.Machine

/-- ARB's effect: a Relative operand uses the `rb` from before, and the sum wraps at 64 bits
(45_base_and_halt.md R160). -/
def adjustBase (a : Mode) (s : State) : Except Fault State :=
  match readParam a 1 s with
  | .error e => .error e
  | .ok v => .ok (advance .arb (s.setRb (wrap64 (s.rb.toInt + v.toInt))))

/-- ARB: `relative_base += a` (45_base_and_halt.md R160). -/
def execArb (a : Mode) (s : State) : StepOutcome := finish (adjustBase a s)

/-- HALT: `state→Halted`, `ip` stays on the HALT word (45_base_and_halt.md R161). -/
def execHalt (s : State) : StepOutcome := .next (s.setState .halted)

end Sys2Proof.Machine
end

