-- ==== Sys2Proof/Machine/Comparison.lean ====
section
/-! DEFINITION. LT and EQ (42_comparison.md). -/

namespace Sys2Proof.Machine

/-- LT: `dst = 1 if a<b else 0`, signed (42_comparison.md R120). -/
def execLt (a b d : Mode) (s : State) : StepOutcome := finish (writeResult lessBit .lt a b d s)

/-- EQ: `dst = 1 if a=b else 0` (42_comparison.md R121). -/
def execEq (a b d : Mode) (s : State) : StepOutcome := finish (writeResult equalBit .eq a b d s)

end Sys2Proof.Machine
end

