-- ==== Sys2Proof/Machine/InputOutput.lean ====
section
/-! DEFINITION. IN and OUT (44_io.md). -/

namespace Sys2Proof.Machine

/-- IN with `v` at the head of the queue: the destination is resolved, `v` leaves the queue and is
stored, `ip` advances (44_io.md R140). -/
def takeInput (d : Mode) (v : Word) (rest : List Word) (s : State) : Except Fault State :=
  match destParam d 1 s with
  | .error e => .error e
  | .ok p =>
    match memWrite (s.setInq rest) p v with
    | .error e => .error e
    | .ok t => .ok (advance .inp t)

/-- IN: `dst = dequeue(input); suspends if input empty` (44_io.md R140). A suspending IN changes
`state` alone, and its destination is not resolved (40_engine.md R98, 44_io.md R142). -/
def execInp (d : Mode) (s : State) : StepOutcome :=
  match s.inq with
  | [] => .next (s.setState .awaitingInput)
  | v :: rest => finish (takeInput d v rest s)

/-- OUT's effect, once its parameter is read (44_io.md R141). -/
def giveOutput (a : Mode) (s : State) : Except Fault State :=
  match readParam a 1 s with
  | .error e => .error e
  | .ok v => .ok (advance .out (s.pushOutput v))

/-- OUT: `enqueue(output, a)` (44_io.md R141). -/
def execOut (a : Mode) (s : State) : StepOutcome := finish (giveOutput a s)

end Sys2Proof.Machine
end

