-- ==== Sys2Proof/Machine/Jumps.lean ====
section
/-! DEFINITION. JT and JF (43_jumps.md). -/

namespace Sys2Proof.Machine

/-- JT: `ip=target if cond≠0 else ip+=3` (43_jumps.md R130). -/
def execJt (c t : Mode) (s : State) : StepOutcome := finish (jumpWhen isNonzero .jt c t s)

/-- JF: `ip=target if cond=0 else ip+=3` (43_jumps.md R131). -/
def execJf (c t : Mode) (s : State) : StepOutcome := finish (jumpWhen isZero .jf c t s)

end Sys2Proof.Machine
end

