-- ==== Sys2Proof/Machine/Dispatch.lean ====
section
/-! DEFINITION. The closed match over the ten operations (40_engine.md R94, R106). -/

namespace Sys2Proof.Machine

def exec (i : Instr) (s : State) : Host.Outcome State Fault Refusal :=
  match i with
  | .add a b d => Sys2Proof.Machine.execAdd a b d s
  | .mul a b d => Sys2Proof.Machine.execMul a b d s
  | .inp d => Sys2Proof.Machine.execInp d s
  | .out a => Sys2Proof.Machine.execOut a s
  | .jt c t => Sys2Proof.Machine.execJt c t s
  | .jf c t => Sys2Proof.Machine.execJf c t s
  | .lt a b d => Sys2Proof.Machine.execLt a b d s
  | .eq a b d => Sys2Proof.Machine.execEq a b d s
  | .arb a => Sys2Proof.Machine.execArb a s
  | .halt => Sys2Proof.Machine.execHalt s

end Sys2Proof.Machine
end

