-- ==== Sys2Proof/Machine/Step.lean ====
section
/-! DEFINITION. The engine's step (40_engine.md R90, R94), and where the host places an instruction. -/

namespace Sys2Proof.Machine

/-- `step()` of 40_engine.md R90 under the parameters `c`: refused, no change, or one instruction. -/
def stepWith (c : Config) (s : State) : StepOutcome :=
  match activity s with
  | .refuse => .refused .discarded
  | .idle => .next s
  | .execute t =>
    match fetch c t with
    | .error e => .fault e
    | .ok i => exec i t

/-- `step()` of the CORE at hand. -/
def step (s : State) : Host.Outcome State Fault Refusal := stepWith Config.chosen s

/-- `s` with the instruction of these bits in the four cells from `ip` on (memory made long enough
for them) and ready to execute it at the next step. It stands for the construction from a program
(DESIGN CHOICE, log entry 5). -/
def State.withFetchWord (s : State) (nbits w : Nat) : State :=
  State.awake (s.setMem (s.mem.place s.ip (tableCells nbits w)))

end Sys2Proof.Machine
end

