-- ==== Sys2Proof/Machine/Assembly.lean ====
section
/-! DEFINITION. The assembler syntax of 30_encoding.md R77, as syntax trees, with assembly and the
disassembly of R78. Comments of a source line carry no meaning and are left out. -/

namespace Sys2Proof.Machine.Assembly

/-- Where an `int` may stand: a literal, or a label that stands for an address (30_encoding.md R77). -/
inductive Number where
  | literal (v : Int)
  | label (name : String)
  deriving DecidableEq, Repr

/-- A number with the sign that stands before it in `[rb+n]` and `[rb-n]` (30_encoding.md R77). -/
inductive Signed where
  | plus (n : Number)
  | minus (n : Number)
  deriving DecidableEq, Repr

/-- A read operand `s`: `#n`, `[n]`, `[rb+n]` or `[rb-n]` (30_encoding.md R77). -/
inductive Source where
  | immediate (n : Number)
  | position (n : Number)
  | relative (o : Signed)
  deriving DecidableEq, Repr

/-- A destination operand `d`: `[n]`, `[rb+n]` or `[rb-n]` (30_encoding.md R77). -/
inductive Dest where
  | position (n : Number)
  | relative (o : Signed)
  deriving DecidableEq, Repr

/-- `insn` of 30_encoding.md R77. -/
inductive Insn where
  | add (a b : Source) (d : Dest)
  | mul (a b : Source) (d : Dest)
  | lt (a b : Source) (d : Dest)
  | eq (a b : Source) (d : Dest)
  | inp (d : Dest)
  | out (a : Source)
  | jt (c t : Source)
  | jf (c t : Source)
  | arb (a : Source)
  | halt
  deriving DecidableEq, Repr

/-- What a line emits: an instruction, or one cell (`.word n`). -/
inductive Item where
  | insn (i : Insn)
  | word (n : Number)
  deriving DecidableEq, Repr

/-- `line` of 30_encoding.md R77. -/
structure Line where
  label : Option String
  item : Item
  deriving DecidableEq, Repr

/-- Why a text has no assembly. The spec gives none for these texts: DESIGN CHOICE, log
entry 8. -/
inductive AsmError where
  | undefinedLabel (name : String)
  | duplicateLabel (name : String)
  | outOfRange (v : Int)
  deriving DecidableEq, Repr

def sourceMode : Source → Mode
  | .immediate _ => .immediate
  | .position _ => .position
  | .relative _ => .relative

/-- The integer that a read operand stands for, as written. -/
def sourceValue : Source → Signed
  | .immediate n => .plus n
  | .position n => .plus n
  | .relative o => o

def destMode : Dest → Mode
  | .position _ => .position
  | .relative _ => .relative

/-- The integer that a destination operand stands for, as written. -/
def destValue : Dest → Signed
  | .position n => .plus n
  | .relative o => o

/-- The instruction a line stands for. -/
def instr : Insn → Instr
  | .add a b d => .add (sourceMode a) (sourceMode b) (destMode d)
  | .mul a b d => .mul (sourceMode a) (sourceMode b) (destMode d)
  | .lt a b d => .lt (sourceMode a) (sourceMode b) (destMode d)
  | .eq a b d => .eq (sourceMode a) (sourceMode b) (destMode d)
  | .inp d => .inp (destMode d)
  | .out a => .out (sourceMode a)
  | .jt c t => .jt (sourceMode c) (sourceMode t)
  | .jf c t => .jf (sourceMode c) (sourceMode t)
  | .arb a => .arb (sourceMode a)
  | .halt => .halt

/-- The operands' integers, in order. -/
def values : Insn → List Signed
  | .add a b d => [sourceValue a, sourceValue b, destValue d]
  | .mul a b d => [sourceValue a, sourceValue b, destValue d]
  | .lt a b d => [sourceValue a, sourceValue b, destValue d]
  | .eq a b d => [sourceValue a, sourceValue b, destValue d]
  | .inp d => [destValue d]
  | .out a => [sourceValue a]
  | .jt c t => [sourceValue c, sourceValue t]
  | .jf c t => [sourceValue c, sourceValue t]
  | .arb a => [sourceValue a]
  | .halt => []

def sourceOffsets : Source → List Signed
  | .immediate _ => []
  | .position _ => []
  | .relative o => [o]

def destOffsets : Dest → List Signed
  | .position _ => []
  | .relative o => [o]

/-- What stands after `[rb` in the operands, in order. -/
def offsets : Insn → List Signed
  | .add a b d => sourceOffsets a ++ sourceOffsets b ++ destOffsets d
  | .mul a b d => sourceOffsets a ++ sourceOffsets b ++ destOffsets d
  | .lt a b d => sourceOffsets a ++ sourceOffsets b ++ destOffsets d
  | .eq a b d => sourceOffsets a ++ sourceOffsets b ++ destOffsets d
  | .inp d => destOffsets d
  | .out a => sourceOffsets a
  | .jt c t => sourceOffsets c ++ sourceOffsets t
  | .jf c t => sourceOffsets c ++ sourceOffsets t
  | .arb a => sourceOffsets a
  | .halt => []

/-- How many cells an item emits. -/
def size : Item → Nat
  | .insn i => (instr i).operation.length
  | .word _ => 1

/-- The labels' addresses, the first line standing at `base`. -/
def labels : Nat → List Line → List (String × Nat)
  | _, [] => []
  | base, l :: rest =>
    match l.label with
    | some name => (name, base) :: labels (base + size l.item) rest
    | none => labels (base + size l.item) rest

/-- The integer is an i64. -/
def isI64 (v : Int) : Bool := decide ((wrap64 v).toInt = v)

/-- An integer as a cell, if it is an i64. -/
def intCell (v : Int) : Except AsmError Word :=
  if isI64 v then .ok (wrap64 v) else .error (.outOfRange v)

/-- What a number stands for: a literal, which must be an i64, or a label's address. -/
def numberValue (table : List (String × Nat)) : Number → Except AsmError Int
  | .literal v => if isI64 v then .ok v else .error (.outOfRange v)
  | .label name =>
    match table.lookup name with
    | some a => .ok a
    | none => .error (.undefinedLabel name)

/-- A number with its sign as a cell: for `[rb-1]` the word is −1, and for `[rb-x]` minus the
address of the label `x` (30_encoding.md R77). -/
def signedCell (table : List (String × Nat)) : Signed → Except AsmError Word
  | .plus n =>
    match numberValue table n with
    | .error e => .error e
    | .ok v => intCell v
  | .minus n =>
    match numberValue table n with
    | .error e => .error e
    | .ok v => intCell (-v)

/-- Numbers with their signs as cells, in order. -/
def signedCells (table : List (String × Nat)) : List Signed → Except AsmError (List Word)
  | [] => .ok []
  | n :: rest =>
    match signedCell table n with
    | .error e => .error e
    | .ok w =>
      match signedCells table rest with
      | .error e => .error e
      | .ok ws => .ok (w :: ws)

/-- The cells of an item: the opcode word, then the operands' integers (30_encoding.md R77). -/
def itemCells (table : List (String × Nat)) : Item → Except AsmError (List Word)
  | .insn i =>
    match signedCells table (values i) with
    | .error e => .error e
    | .ok ws => .ok (encode (instr i) ws)
  | .word n => signedCells table [.plus n]

/-- The cells of lines, in order. -/
def lineCells (table : List (String × Nat)) : List Line → Except AsmError (List Word)
  | [] => .ok []
  | l :: rest =>
    match itemCells table l.item with
    | .error e => .error e
    | .ok ws =>
      match lineCells table rest with
      | .error e => .error e
      | .ok more => .ok (ws ++ more)

/-- The first name that occurs twice. -/
def repeated : List (String × Nat) → Option String
  | [] => none
  | (name, _) :: rest => if (rest.lookup name).isSome then some name else repeated rest

/-- The program of a text (30_encoding.md R77). -/
def assemble (text : List Line) : Except AsmError (List Word) :=
  match repeated (labels 0 text) with
  | some name => .error (.duplicateLabel name)
  | none => lineCells (labels 0 text) text

/-- A parameter word printed after `[rb`: a minus sign before the size of a negative word, but for
the least word, whose size is no i64 literal. -/
def signedOf (w : Word) : Signed :=
  if w.toInt < 0 && isI64 (-w.toInt) then .minus (.literal (-w.toInt)) else .plus (.literal w.toInt)

/-- A parameter word printed as a read operand of a mode. -/
def sourceOf (m : Mode) (w : Word) : Source :=
  match m with
  | .immediate => .immediate (.literal w.toInt)
  | .position => .position (.literal w.toInt)
  | .relative => .relative (signedOf w)

/-- A parameter word printed as a destination. One in Immediate mode, which only IMM_WRITE =
AsPosition decodes, is printed as the address it then is: the syntax has no other form for it. -/
def destOf (m : Mode) (w : Word) : Dest :=
  match m with
  | .immediate => .position (.literal w.toInt)
  | .position => .position (.literal w.toInt)
  | .relative => .relative (signedOf w)

/-- An instruction with its parameter words, printed; none where a parameter word is missing. -/
def insnOf (i : Instr) (raws : List Word) : Option Insn :=
  match i, raws with
  | .add a b d, x :: y :: z :: _ => some (.add (sourceOf a x) (sourceOf b y) (destOf d z))
  | .mul a b d, x :: y :: z :: _ => some (.mul (sourceOf a x) (sourceOf b y) (destOf d z))
  | .lt a b d, x :: y :: z :: _ => some (.lt (sourceOf a x) (sourceOf b y) (destOf d z))
  | .eq a b d, x :: y :: z :: _ => some (.eq (sourceOf a x) (sourceOf b y) (destOf d z))
  | .inp d, x :: _ => some (.inp (destOf d x))
  | .out a, x :: _ => some (.out (sourceOf a x))
  | .jt c t, x :: y :: _ => some (.jt (sourceOf c x) (sourceOf t y))
  | .jf c t, x :: y :: _ => some (.jf (sourceOf c x) (sourceOf t y))
  | .arb a, x :: _ => some (.arb (sourceOf a x))
  | .halt, _ => some .halt
  | .add _ _ _, _ => none
  | .mul _ _ _, _ => none
  | .lt _ _ _, _ => none
  | .eq _ _ _, _ => none
  | .inp _, _ => none
  | .out _, _ => none
  | .jt _ _, _ => none
  | .jf _ _, _ => none
  | .arb _, _ => none

/-- A line of a listing: the item, and the original word of a `; raw w` comment. -/
structure Listing where
  item : Item
  raw : Option Word
  deriving DecidableEq, Repr

/-- The listing of the word `w` with the cells after it, and how many cells it stands for
(30_encoding.md R78). A word whose parameter words are missing is printed as `.word w`; the spec
does not say how (DESIGN CHOICE, log entry 8). -/
def disassembleOne (c : Config) (w : Word) (after : List Word) : Listing × Nat :=
  match decodeWord c w with
  | .error _ => ({ item := .word (.literal w.toInt), raw := none }, 1)
  | .ok i =>
    match insnOf i after with
    | none => ({ item := .word (.literal w.toInt), raw := none }, 1)
    | some p =>
      ({ item := .insn p, raw := if encodeWord (instr p) = w then none else some w },
        i.operation.length)

/-- The listing of at most `n` lines of a cell sequence. -/
def disassemble (c : Config) : Nat → List Word → List Listing
  | 0, _ => []
  | _ + 1, [] => []
  | n + 1, w :: rest =>
    (disassembleOne c w rest).1 ::
      disassemble c n (rest.drop ((disassembleOne c w rest).2 - 1))

/-! ### The printed form -/

def showNumber : Number → String
  | .literal v => toString v
  | .label name => name

/-- `[rb+n]` or `[rb-n]`. -/
def showRelative : Signed → String
  | .plus n => "[rb+" ++ showNumber n ++ "]"
  | .minus n => "[rb-" ++ showNumber n ++ "]"

def showSource : Source → String
  | .immediate n => "#" ++ showNumber n
  | .position n => "[" ++ showNumber n ++ "]"
  | .relative o => showRelative o

def showDest : Dest → String
  | .position n => "[" ++ showNumber n ++ "]"
  | .relative o => showRelative o

/-- The mnemonics of 30_encoding.md R66 with their operands. -/
def showInsn : Insn → String
  | .add a b d => "ADD " ++ showSource a ++ ", " ++ showSource b ++ ", " ++ showDest d
  | .mul a b d => "MUL " ++ showSource a ++ ", " ++ showSource b ++ ", " ++ showDest d
  | .lt a b d => "LT " ++ showSource a ++ ", " ++ showSource b ++ ", " ++ showDest d
  | .eq a b d => "EQ " ++ showSource a ++ ", " ++ showSource b ++ ", " ++ showDest d
  | .inp d => "IN " ++ showDest d
  | .out a => "OUT " ++ showSource a
  | .jt c t => "JT " ++ showSource c ++ ", " ++ showSource t
  | .jf c t => "JF " ++ showSource c ++ ", " ++ showSource t
  | .arb a => "ARB " ++ showSource a
  | .halt => "HALT"

def showItem : Item → String
  | .insn i => showInsn i
  | .word n => ".word " ++ showNumber n

/-- One printed line of a listing. -/
def showListing (l : Listing) : String :=
  match l.raw with
  | none => showItem l.item
  | some w => showItem l.item ++ " ; raw " ++ toString w.toInt

end Sys2Proof.Machine.Assembly
end

