-- ==== Sys2Proof/Machine/Driver.lean ====
section
/-! DEFINITION. The host transactions on one CORE (46_host_interface.md R170 to R183), and the
hand-off of queue values between two COREs (R181). `new` is `State.new` in Machine/Ops.lean. -/

namespace Sys2Proof.Machine.Driver

/-- What a step or a run returns to the driver (40_engine.md R102). -/
inductive Report where
  | ok
  | err (e : Fault)
  deriving DecidableEq, Repr

/-- `enqueue_input(v)`: dropped in `Halted`, else appended; `state` stays (46_host_interface.md R172). -/
def enqueueInput (v : Word) (s : State) : Except Refusal State :=
  match s.fault with
  | some _ => .error .discarded
  | none =>
    match s.state with
    | .halted => .ok s
    | .notStarted => .ok (s.pushInput v)
    | .running => .ok (s.pushInput v)
    | .awaitingInput => .ok (s.pushInput v)

/-- `dequeue_output()`: the oldest output, or none (46_host_interface.md R173). -/
def dequeueOutput (s : State) : Except Refusal (Option Word × State) :=
  match s.fault with
  | some _ => .error .discarded
  | none =>
    match s.outq with
    | [] => .ok (none, s)
    | v :: rest => .ok (some v, s.setOutq rest)

/-- `current_state()`, read-only (46_host_interface.md R175). -/
def currentState (s : State) : Except Refusal ExecState :=
  match s.fault with
  | some _ => .error .discarded
  | none => .ok s.state

/-- `clone`: a value copy of the whole state (46_host_interface.md R176). -/
def clone (s : State) : Except Refusal State :=
  match s.fault with
  | some _ => .error .discarded
  | none => .ok s

/-- `inspect_memory(a)`, read-only; any value after a fault (46_host_interface.md R178, R179). -/
def inspectMemory (a : Int) (s : State) : Option Word :=
  match s.fault with
  | some _ => Config.inspectAfterFault s a
  | none => if s.mem.contains a then some (s.mem.cell a.toNat) else none

/-- `step()` as a transaction, under the parameters `c` (46_host_interface.md R183). An error is
latched (10_state.md R30). DEDUCED, log entry 9. -/
def stepRequestWith (c : Config) (s : State) : Except Refusal (Report × State) :=
  match stepWith c s with
  | .next t => .ok (.ok, t)
  | .fault e => .ok (.err e, s.latch e)
  | .refused r => .error r

/-- `step()` as a transaction on the CORE at hand. -/
def stepRequest (s : State) : Except Refusal (Report × State) := stepRequestWith Config.chosen s

/-- Where a run is after a number of steps: a run need not return (40_engine.md R103). -/
inductive RunResult where
  /-- The run returned (40_engine.md R101, R102). -/
  | returned (r : Report) (s : State)
  /-- The run has not returned yet: it is in progress, and no transaction begins in this state
  (46_host_interface.md R170; Machine/Fleet.lean keeps to that). -/
  | unfinished (s : State)
  /-- The CORE has a latched fault (46_host_interface.md R178). -/
  | refused (r : Refusal)
  deriving DecidableEq, Repr

/-- The states in which a run stops (40_engine.md R101). -/
def stops (x : ExecState) : Bool := decide (x = .halted) || decide (x = .awaitingInput)

/-- `run_until_blocked_or_halted()`, watched for at most `n` steps: refused after a fault, else steps
until the state is `Halted` or `AwaitingInput`, with at least one step (40_engine.md R101). The fuel
is a DESIGN CHOICE, log entry 6 (40_engine.md R103 allows it). -/
def runWith (c : Config) : Nat → State → RunResult
  | 0, s =>
    match s.fault with
    | some _ => .refused .discarded
    | none => .unfinished s
  | n + 1, s =>
    match stepWith c s with
    | .next t => if stops t.state then .returned .ok t else runWith c n t
    | .fault e => .returned (.err e) (s.latch e)
    | .refused r => .refused r

/-- `run_until_blocked_or_halted()` of the CORE at hand, watched for at most `n` steps. -/
def run (n : Nat) (s : State) : RunResult := runWith Config.chosen n s

/-- At most `n` moves of one value each, until the first CORE has no output left. -/
def moveValues : Nat → State → State → Except Refusal (State × State)
  | 0, a, b => .ok (a, b)
  | n + 1, a, b =>
    match dequeueOutput a with
    | .error r => .error r
    | .ok (none, a') => .ok (a', b)
    | .ok (some v, a') =>
      match enqueueInput v b with
      | .error r => .error r
      | .ok b' => moveValues n a' b'

/-- The pipeline hand-off from `a` to `b`: repeated `dequeue_output` on `a` and `enqueue_input` on
`b`, until `a` answers that it has none (46_host_interface.md R181, 70_reset_and_hazards.md R225). -/
def handOff (a b : State) : Except Refusal (State × State) := moveValues (a.outq.length + 1) a b

end Sys2Proof.Machine.Driver
end

