-- ==== Sys2Proof/Machine/Fleet.lean ====
section
/-! DEFINITION. Any number of COREs, each with its own state, under one driver (10_state.md R31,
46_host_interface.md R170, R182, 60_exceptions.md R214). -/

namespace Sys2Proof.Machine.Fleet

open Sys2Proof.Machine.Driver

/-- A transaction on one CORE (46_host_interface.md R170). `run n` begins a run and watches it for
its first `n` steps. -/
inductive Request where
  | enqueueInput (v : Word)
  | dequeueOutput
  | run (n : Nat)
  | currentState
  | clone
  | inspectMemory (a : Int)
  | step
  deriving DecidableEq, Repr

/-- One CORE as the driver sees it: its state, and whether a run on it is in progress, that is, has
begun and not returned. The mark is the driver's and no state element of the CORE. -/
structure Member where
  core : State
  inRun : Bool
  deriving DecidableEq, Repr

/-- A CORE on which no run is in progress. -/
def idle (s : State) : Member := { core := s, inRun := false }

/-- What happens next among the COREs: the driver builds one, or sends a request to the one at this
place, or the run in progress at this place goes on for `n` more steps. -/
inductive Event where
  | new (program : List Word) (pad : Bool)
  | send (k : Nat) (r : Request)
  | goOn (k n : Nat)
  deriving DecidableEq, Repr

/-- What an event gives the driver (46_host_interface.md R170). -/
inductive Answer where
  /-- A CORE was made, at this place (by `new` or by `clone`). -/
  | made (k : Nat)
  | nothing
  | output (v : Option Word)
  | report (r : Report)
  /-- The run has not returned, and is in progress. -/
  | unfinished
  | state (x : ExecState)
  | memory (v : Option Word)
  | refused (r : Refusal)
  /-- A run on that CORE is in progress, so the transaction does not begin. -/
  | busy
  /-- No run on that CORE is in progress. -/
  | noRun
  /-- There is no CORE at that place. -/
  | noCore
  deriving DecidableEq, Repr

/-- A host transaction that gives a value and the CORE afterwards; refused, it changes nothing. -/
def grant {α : Type} (f : α → Answer) (s : State) : Except Refusal (α × State) → Answer × Member
  | .ok (x, t) => (f x, idle t)
  | .error e => (.refused e, idle s)

/-- What the driver sees of a run on the CORE `s` that was watched for some steps. -/
def watched (s : State) : RunResult → Answer × Member
  | .returned x t => (.report x, idle t)
  | .unfinished t => (.unfinished, { core := t, inRun := true })
  | .refused e => (.refused e, idle s)

/-- A transaction on a CORE on which no run is in progress: what it gives, and the CORE afterwards.
`count` is the place a clone would have. -/
def perform (count : Nat) (r : Request) (s : State) : Answer × Member :=
  match r with
  | .enqueueInput v => grant (fun _ => .nothing) s ((Driver.enqueueInput v s).map fun t => ((), t))
  | .dequeueOutput => grant .output s (Driver.dequeueOutput s)
  | .run n => watched s (Driver.run n s)
  | .currentState => grant .state s ((Driver.currentState s).map fun x => (x, s))
  | .clone => grant (fun _ => .made count) s ((Driver.clone s).map fun t => (t, s))
  | .inspectMemory a => (.memory (Driver.inspectMemory a s), idle s)
  | .step => grant .report s (Driver.stepRequest s)

/-- The COREs that a transaction adds: a granted clone adds the copy (46_host_interface.md R176). -/
def added (r : Request) (s : State) : List Member :=
  match r with
  | .clone =>
    match Driver.clone s with
    | .ok t => [idle t]
    | .error _ => []
  | .enqueueInput _ => []
  | .dequeueOutput => []
  | .run _ => []
  | .currentState => []
  | .inspectMemory _ => []
  | .step => []

/-- One event among all the COREs. No transaction on a CORE begins while a run on it is in progress
(46_host_interface.md R170, 20_memory.md R52); other COREs are not held up (R182). One order of all
events is a DESIGN CHOICE, log entry 10. -/
def apply (e : Event) (fleet : List Member) : Answer × List Member :=
  match e with
  | .new program pad => (.made fleet.length, fleet ++ [idle (State.new program pad)])
  | .send k r =>
    match fleet[k]? with
    | none => (.noCore, fleet)
    | some m =>
      if m.inRun then (.busy, fleet)
      else
        let (a, m') := perform fleet.length r m.core
        (a, fleet.set k m' ++ added r m.core)
  | .goOn k n =>
    match fleet[k]? with
    | none => (.noCore, fleet)
    | some m =>
      if m.inRun then
        let (a, m') := watched m.core (Driver.run n m.core)
        (a, fleet.set k m')
      else (.noRun, fleet)

end Sys2Proof.Machine.Fleet
end

