-- ==== Sys2Proof/Safety.lean ====
section
/-! DEFINITION. The words that claims about the machine are stated in: which parameters resolve to
what, which access is the first bad one, and the invariant of every reachable state. They are
written from the rules, not from the model's operations. -/

namespace Sys2Proof.Machine

/-- The address is inside memory: 0 ≤ a < len (20_memory.md R44). -/
def InMemory (s : State) (a : Int) : Prop := 0 ≤ a ∧ a < s.mem.len

/-- Parameter word `k` of the instruction at `ip` exists and is `r` (30_encoding.md R60, R68). -/
def HoldsParam (s : State) (k : Nat) (r : Word) : Prop :=
  s.ip + k < s.mem.len ∧ s.mem.cell (s.ip + k) = r

/-- The address a parameter word names in Position or Relative mode (30_encoding.md R65, R71). A
destination in Immediate mode, where IMM_WRITE = AsPosition decodes one, names the word itself
(R69). -/
def namedAddress (s : State) : Mode → Word → Int
  | .relative, r => s.rb.toInt + r.toInt
  | .position, r => r.toInt
  | .immediate, r => r.toInt

/-- Read parameter `k` of mode `m` resolves to the value `v` (30_encoding.md R68). -/
def ReadsTo (s : State) (m : Mode) (k : Nat) (v : Word) : Prop :=
  ∃ r, HoldsParam s k r ∧
    match m with
    | .immediate => v = r
    | .position => InMemory s (namedAddress s .position r) ∧ v = s.mem.cell (namedAddress s .position r).toNat
    | .relative => InMemory s (namedAddress s .relative r) ∧ v = s.mem.cell (namedAddress s .relative r).toNat

/-- Destination parameter `k` of mode `m` resolves to the address `p` (30_encoding.md R69). -/
def StoresAt (s : State) (m : Mode) (k : Nat) (p : Nat) : Prop :=
  ∃ r, HoldsParam s k r ∧ InMemory s (namedAddress s m r) ∧ namedAddress s m r = (p : Int)

/-- The parameter word `k` is beyond memory, and `x` is its address (60_exceptions.md R201). -/
def MissingParam (s : State) (k : Nat) (x : Int) : Prop := s.mem.len ≤ s.ip + k ∧ x = ((s.ip + k : Nat) : Int)

/-- Resolving parameter `k` of this role and mode raises `InvalidAddress` at `x`: its word is
missing, or the address it names is outside memory (60_exceptions.md R201). An Immediate read names
no address. -/
def BadParam (s : State) (role : Role) (m : Mode) (k : Nat) (x : Int) : Prop :=
  MissingParam s k x ∨
    ∃ r, HoldsParam s k r ∧ ¬ (role = .read ∧ m = .immediate) ∧ ¬ InMemory s (namedAddress s m r) ∧
      x = namedAddress s m r

/-- Resolving parameter `k` of this role and mode succeeds. -/
def GoodParam (s : State) (role : Role) (m : Mode) (k : Nat) : Prop :=
  match role with
  | .read => ∃ v, ReadsTo s m k v
  | .destination => ∃ p, StoresAt s m k p

/-- `x` is the address of the first bad parameter, in the order 1, 2, 3 (30_encoding.md R70,
60_exceptions.md R207 item 6). -/
def FirstBad (s : State) : Nat → List (Role × Mode) → Int → Prop
  | _, [], _ => False
  | k, (role, m) :: rest, x =>
    BadParam s role m k x ∨ (GoodParam s role m k ∧ FirstBad s (k + 1) rest x)

/-- The parameters of an instruction: their roles (30_encoding.md R66) and modes. -/
def paramsOf (i : Instr) : List (Role × Mode) := i.operation.roles.zip i.modes

/-- Both parameters of a jump resolve, the jump is taken, and its target `x` is negative
(43_jumps.md R132, 60_exceptions.md R207 item 7). -/
def NegativeTarget (s : State) (i : Instr) (x : Int) : Prop :=
  match i with
  | .jt c t => ∃ u v, ReadsTo s c 1 u ∧ ReadsTo s t 2 v ∧ u.toInt ≠ 0 ∧ v.toInt < 0 ∧ x = v.toInt
  | .jf c t => ∃ u v, ReadsTo s c 1 u ∧ ReadsTo s t 2 v ∧ u.toInt = 0 ∧ v.toInt < 0 ∧ x = v.toInt
  | .add _ _ _ => False
  | .mul _ _ _ => False
  | .inp _ => False
  | .out _ => False
  | .lt _ _ _ => False
  | .eq _ _ _ => False
  | .arb _ => False
  | .halt => False

/-- The instruction waits for input: IN with an empty queue (44_io.md R140). -/
def Waits (s : State) (i : Instr) : Prop := (∃ d, i = .inp d) ∧ s.inq = []

/-- The mode digit `d` is legal for the role (30_encoding.md R73). -/
def LegalMode (w : ImmWrite) (role : Role) (d : Int) : Prop :=
  match role with
  | .read => d = 0 ∨ d = 1 ∨ d = 2
  | .destination => d = 0 ∨ d = 2 ∨ (d = 1 ∧ w = .asPosition)

/-- From `s` to `t` cell `p` was replaced by `v` and `ip` moved by `n`; no other cell, no other
element but the Input Queue differs (20_memory.md R45, 40_engine.md R100). -/
structure WroteCell (s t : State) (p : Nat) (v : Word) (n : Nat) : Prop where
  written : t.mem.cell p = v
  others : ∀ q, q ≠ p → t.mem.cell q = s.mem.cell q
  len : t.mem.len = s.mem.len
  ip : t.ip = s.ip + n
  rb : t.rb = s.rb
  state : t.state = s.state
  outq : t.outq = s.outq
  fault : t.fault = s.fault

/-- The CORE executes an instruction at its next step, with no change of `state` before it. -/
def Executing (s : State) : Prop := s.fault = none ∧ s.state = .running

/-- The state after `n` steps, none if one of them ends in a fault or a refusal. -/
def stepTimes : Nat → State → Option State
  | 0, s => some s
  | n + 1, s =>
    match step s with
    | .next t => stepTimes n t
    | .fault _ => none
    | .refused _ => none

/-- What every state holds that a CORE reaches with no fatal error. -/
structure State.Inv (s : State) : Prop where
  /-- Memory is in canonical form. -/
  memory : s.mem.wf = true
  /-- No fault is latched. -/
  unfaulted : s.fault = none
  /-- Nothing has happened before the first step (40_engine.md R91, 10_state.md R33). -/
  fresh : s.state = .notStarted → s.ip = 0 ∧ s.rb = 0#64 ∧ s.outq = []
  /-- A waiting CORE stands on the IN that suspended (40_engine.md R95, R98). -/
  waiting : s.state = .awaitingInput → ∃ d, fetch Config.chosen s = .ok (.inp d)
  /-- A halted CORE stands on a HALT word (45_base_and_halt.md R161). -/
  stopped : s.state = .halted → fetch Config.chosen s = .ok .halt

end Sys2Proof.Machine
end

