-- ==== Sys2Proof/Certificates/Slice0/Obligations.lean ====
section
/-! DEFINITION. The statements for the provers, each from the rules its docstring cites. -/

open Sys2Proof Sys2Proof.Machine

/-! ### Construction and reset -/

/-- 10_state.md R33, 20_memory.md R46, R47, R49: a new CORE holds its program from address 0 on,
then zeros up to the ceiling where padding is asked for, and every other element has its reset
value. The zeros, the empty queues and the empty latch are derivations and decisions that R33 marks
as the spec's own (D3, D4, D5, D15). -/
def Obligations.NewCoreIsInTheResetState : Prop :=
  ∀ (ceiling : Nat) (P : List Word) (pad : Bool),
    (State.newWith ceiling P pad).mem.len = (if pad = true then max P.length ceiling else P.length) ∧
    (∀ a v, P[a]? = some v → (State.newWith ceiling P pad).mem.cell a = v) ∧
    (∀ a, P.length ≤ a → a < (State.newWith ceiling P pad).mem.len →
      (State.newWith ceiling P pad).mem.cell a = 0#64) ∧
    (State.newWith ceiling P pad).ip = 0 ∧
    (State.newWith ceiling P pad).rb = 0#64 ∧
    (State.newWith ceiling P pad).state = .notStarted ∧
    (State.newWith ceiling P pad).inq = [] ∧
    (State.newWith ceiling P pad).outq = [] ∧
    (State.newWith ceiling P pad).fault = none

/-- The model's choice (log entry 2): `State.reset` is the construction of the empty program without
padding. Its other elements have the values of 10_state.md R33. -/
def Obligations.ResetIsTheEmptyConstruction : Prop :=
  (∀ ceiling, State.reset = State.newWith ceiling [] false) ∧
    State.reset.mem.len = 0 ∧ State.reset.ip = 0 ∧ State.reset.rb = 0#64 ∧
    State.reset.state = .notStarted ∧ State.reset.inq = [] ∧ State.reset.outq = [] ∧
    State.reset.fault = none

/-- 70_reset_and_hazards.md R222: the first step of a CORE built from the program of length 0. R222
marks it as derived from R46 and R94. -/
def Obligations.FirstStepOfTheEmptyProgram : Prop :=
  ∀ c : Config,
    stepWith c (State.newWith c.memCeiling [] false) = .fault (.invalidAddress 0 0) ∧
    (c.memCeiling = 0 →
      stepWith c (State.newWith c.memCeiling [] true) = .fault (.invalidAddress 0 0)) ∧
    (0 < c.memCeiling →
      (State.newWith c.memCeiling [] true).mem.len = c.memCeiling ∧
      (∀ a, (State.newWith c.memCeiling [] true).mem.cell a = 0#64) ∧
      stepWith c (State.newWith c.memCeiling [] true) = .fault (.unsupportedOpcode 0 0#64 0))

/-! ### Encoding -/

/-- 30_encoding.md R62, R63: the five decimal fields make up the word again, and each lies in its
range: digits for a word that is not negative, their negatives for one that is. The half for
negative words is the spec's decision D10 (R63). -/
def Obligations.FieldsRecomposeTheWord : Prop :=
  ∀ w : Word,
    w.toInt = (fields w).hi * 100000 + (fields w).m3 * 10000 + (fields w).m2 * 1000 +
      (fields w).m1 * 100 + (fields w).op ∧
    (0 ≤ w.toInt →
      (0 ≤ (fields w).op ∧ (fields w).op ≤ 99) ∧ (0 ≤ (fields w).m1 ∧ (fields w).m1 ≤ 9) ∧
      (0 ≤ (fields w).m2 ∧ (fields w).m2 ≤ 9) ∧ (0 ≤ (fields w).m3 ∧ (fields w).m3 ≤ 9) ∧
      0 ≤ (fields w).hi) ∧
    (w.toInt < 0 →
      (-99 ≤ (fields w).op ∧ (fields w).op ≤ 0) ∧ (-9 ≤ (fields w).m1 ∧ (fields w).m1 ≤ 0) ∧
      (-9 ≤ (fields w).m2 ∧ (fields w).m2 ≤ 0) ∧ (-9 ≤ (fields w).m3 ∧ (fields w).m3 ≤ 0) ∧
      (fields w).hi ≤ 0)

/-- 95_test_vectors.md V8, V9 and 30_encoding.md R64: the source's two decode examples, and `2`. -/
def Obligations.FieldsOfTheSourceExamples : Prop :=
  fields 1002#64 = { op := 2, m1 := 0, m2 := 1, m3 := 0, hi := 0 } ∧
    fields 31204#64 = { op := 4, m1 := 2, m2 := 1, m3 := 3, hi := 0 } ∧
    fields 2#64 = { op := 2, m1 := 0, m2 := 0, m3 := 0, hi := 0 }

/-- 30_encoding.md R62, R66, R77: one word of every operation, written out from the spec. -/
def Obligations.WordsOfEveryOperationDecode : Prop :=
  ∀ c : Config,
    decodeWord c 21101#64 = .ok (.add .immediate .immediate .relative) ∧
    decodeWord c 1002#64 = .ok (.mul .position .immediate .position) ∧
    decodeWord c 203#64 = .ok (.inp .relative) ∧
    decodeWord c 104#64 = .ok (.out .immediate) ∧
    decodeWord c 1105#64 = .ok (.jt .immediate .immediate) ∧
    decodeWord c 1006#64 = .ok (.jf .position .immediate) ∧
    decodeWord c 107#64 = .ok (.lt .immediate .position .position) ∧
    decodeWord c 1008#64 = .ok (.eq .position .immediate .position) ∧
    decodeWord c 209#64 = .ok (.arb .relative) ∧
    decodeWord c 99#64 = .ok .halt

/-- 30_encoding.md R73, R77: for every instruction, each parameter in every mode the parameters of
the CORE admit, the opcode word decodes to the instruction. The modes a destination admits are the
spec's decision D8, the word's form its decision D21. -/
def Obligations.DecodeOfEncodeIsTheInstruction : Prop :=
  ∀ (c : Config) (i : Instr), i.wellFormedUnder c.immWrite = true → decodeWord c (encodeWord i) = .ok i

/-- 30_encoding.md R62, R72, R73, R74, R75, R76: a word decodes to an instruction exactly if it is
not negative, its low digits (two, and one for each parameter the operation has) are those of the
instruction's opcode word, the instruction's modes are legal, and it has no digit at place 10^5 or
above where HIGH_DIGITS = Fault. R63, R73, R74 and R76 mark what they say of negative words, modes
and ignored digits as the spec's decisions D7 to D10. -/
def Obligations.DecodeAcceptsExactlyTheLegalWords : Prop :=
  ∀ (c : Config) (w : Word) (i : Instr),
    decodeWord c w = .ok i ↔
      i.wellFormedUnder c.immWrite = true ∧ 0 ≤ w.toInt ∧
      w.toInt % ((10 ^ (2 + i.modes.length) : Nat) : Int) =
        ((i.operation.code + 100 * modeDigits i.modes : Nat) : Int) ∧
      (c.highDigits = .fault → w.toInt < 100000)

/-- 30_encoding.md R72, 60_exceptions.md R203: an OP value outside the map, that of every negative
word among them, raises `UnsupportedOpcode(ip, w, op)`, whatever else the word or memory holds. What
a negative word decodes to is the spec's decision D10 (R63), the record's fields its decision D22
(R203). -/
def Obligations.OperationOutsideTheMapIsUnsupported : Prop :=
  ∀ (c : Config) (s : State) (w : Word), Executing s → s.ip < s.mem.len → s.mem.cell s.ip = w →
    (Int.tmod w.toInt 100 ∉ [1, 2, 3, 4, 5, 6, 7, 8, 9, 99] →
      stepWith c s = .fault (.unsupportedOpcode s.ip w (Int.tmod w.toInt 100))) ∧
    (w.toInt < 0 → Int.tmod w.toInt 100 ∉ [1, 2, 3, 4, 5, 6, 7, 8, 9, 99])

/-- 30_encoding.md R73: the mode digits of the parameters an operation has are checked against their
roles, before any parameter word is fetched (nothing is assumed of those words). The spec marks this
as its decisions D7 and D8, and the order of the checks as D14. -/
def Obligations.ModeDigitsAreCheckedByRole : Prop :=
  ∀ (c : Config) (s : State) (w : Word) (o : Operation),
    Executing s → s.ip < s.mem.len → s.mem.cell s.ip = w →
    Int.tmod w.toInt 100 = (o.code : Int) →
    (c.highDigits = .fault → Int.tdiv w.toInt 100000 = 0) →
    ((∃ (k : Nat) (role : Role), o.roles[k]? = some role ∧ ¬ LegalMode c.immWrite role (digit w.toInt (k + 2))) →
      stepWith c s = .fault (.unsupportedOpcode s.ip w (o.code : Int))) ∧
    ((∀ (k : Nat) (role : Role), o.roles[k]? = some role → LegalMode c.immWrite role (digit w.toInt (k + 2))) →
      ∃ i, decodeWord c w = .ok i ∧ i.operation = o)

/-- 30_encoding.md R74: words of one operation that differ only in the mode digits of parameters it
does not have decode alike; with the rule's own examples. The spec marks this as its decision D7. -/
def Obligations.UnusedModeDigitsAreIgnored : Prop :=
  (∀ (c : Config) (w w' : Word) (o : Operation),
    Int.tmod w.toInt 100 = (o.code : Int) → Int.tmod w'.toInt 100 = (o.code : Int) →
    Int.tdiv w.toInt 100000 = Int.tdiv w'.toInt 100000 →
    (∀ k, k < o.roles.length → digit w.toInt (k + 2) = digit w'.toInt (k + 2)) →
    decodeWord c w = decodeWord c w') ∧
  ∀ c : Config,
    decodeWord c 199#64 = .ok .halt ∧ decodeWord c 1099#64 = .ok .halt ∧
    decodeWord c 20099#64 = .ok .halt ∧ decodeWord c 31204#64 = .ok (.out .relative)

/-- 30_encoding.md R76: digits at place 10^5 and above raise `UnsupportedOpcode` under HIGH_DIGITS =
Fault, before the mode digits are checked, and select nothing under HIGH_DIGITS = Ignore. The spec
marks this as its decision D9. -/
def Obligations.HighDigitsFollowTheirParameter : Prop :=
  ∀ (c : Config) (s : State) (w : Word) (o : Operation),
    Executing s → s.ip < s.mem.len → s.mem.cell s.ip = w →
    Int.tmod w.toInt 100 = (o.code : Int) → Int.tdiv w.toInt 100000 ≠ 0 →
    (c.highDigits = .fault → stepWith c s = .fault (.unsupportedOpcode s.ip w (o.code : Int))) ∧
    (c.highDigits = .ignore → decodeWord c w = decodeWord c (wrap64 (Int.tmod w.toInt 100000)))

/-! ### The step -/

/-- 40_engine.md R91, R94: a step that executes runs the instruction its word decodes to, in state
Running; it faults at an `ip` outside memory, and at a word that decodes to none. That the first
step executes too is the spec's decision D18, the order of the checks D14. -/
def Obligations.StepRunsTheDecodedInstruction : Prop :=
  ∀ s : State, s.fault = none →
    (s.state = .notStarted ∨ s.state = .running ∨ (s.state = .awaitingInput ∧ s.inq ≠ [])) →
    (s.mem.len ≤ s.ip → step s = .fault (.invalidAddress s.ip (s.ip : Int))) ∧
    (s.ip < s.mem.len →
      (∀ i, decodeWord Config.chosen (s.mem.cell s.ip) = .ok i →
        step s = exec i { s with state := .running }) ∧
      (∀ e, decodeWord Config.chosen (s.mem.cell s.ip) = .error e →
        step s = .fault (.unsupportedOpcode s.ip (s.mem.cell s.ip)
          (Int.tmod (s.mem.cell s.ip).toInt 100))))

/-- 40_engine.md R92: a step in `Halted` changes no state element. -/
def Obligations.HaltedStepChangesNothing : Prop :=
  ∀ s : State, s.fault = none → s.state = .halted → step s = .next s

/-- 40_engine.md R93: a CORE with a latched fault has no step; the request is refused, and is
neither a no-op nor a new fault. The spec marks this as its decision D15. -/
def Obligations.FaultedCoreHasNoStep : Prop :=
  ∀ (s : State) (e : Fault), s.fault = some e → step s = .refused .discarded

/-- 40_engine.md R95: a step in `AwaitingInput` changes nothing while the queue is empty; with a
value queued it executes the pending IN, which completes where its destination is inside memory.
That the queue is looked at by a step, not by the host's enqueue, is the spec's decision D17. -/
def Obligations.AwaitingStepCompletesThePendingIn : Prop :=
  ∀ s : State, s.Inv → s.state = .awaitingInput →
    (s.inq = [] → step s = .next s) ∧
    (∀ v rest, s.inq = v :: rest →
      ∃ d, decodeWord Config.chosen (s.mem.cell s.ip) = .ok (.inp d) ∧
        step s = exec (.inp d) { s with state := .running } ∧
        ∀ p, StoresAt s d 1 p →
          ∃ t, step s = .next t ∧ t.state = .running ∧ t.inq = rest ∧ t.mem.cell p = v ∧ t.ip = s.ip + 2)

/-- 40_engine.md R96: the transitions of `state`, complete: those of a step, the fatal error, and
the host operations, which make none. The first step, the resumption and the latch are the spec's
decisions D18, D17 and D15. -/
def Obligations.StateTransitionsAreThoseOfTheTable : Prop :=
  (∀ s t : State, s.Inv → step s = .next t →
    (s.state = .halted → t = s) ∧
    (s.state = .awaitingInput →
      (s.inq = [] ∧ t = s) ∨ (s.inq ≠ [] ∧ t.state = .running ∧ t.ip = s.ip + 2)) ∧
    (s.state = .notStarted ∨ s.state = .running →
      ∃ i, fetch Config.chosen s = .ok i ∧
        ((i = .halt ∧ t = { s with state := .halted }) ∨
         (Waits s i ∧ t = { s with state := .awaitingInput }) ∨
         (i ≠ .halt ∧ ¬ Waits s i ∧ t.state = .running)))) ∧
  (∀ (s : State) (e : Fault), step s = .fault e →
    ∃ t, Driver.stepRequest s = .ok (.err e, t) ∧ t.fault = some e) ∧
  (∀ (s t : State) (v : Word), Driver.enqueueInput v s = .ok t → t.state = s.state) ∧
  (∀ (s t : State) (o : Option Word), Driver.dequeueOutput s = .ok (o, t) → t.state = s.state)

/-- 10_state.md R23: the only writes to `ip`: those of a step that executes, by operation; none by a
step that executes nothing, and none by a host operation. That HALT leaves `ip` as it is, is the
spec's decision D19 (R161); that a jump's target is resolved when it is not taken, too, its decision
D14 (R132); that a negative taken target is an error and no write of `ip`, D13; that the first step
executes, D18 (R91). -/
def Obligations.InstructionPointerWrites : Prop :=
  (∀ (s t : State) (i : Instr),
    (s.state = .notStarted ∨ s.state = .running ∨ (s.state = .awaitingInput ∧ s.inq ≠ [])) →
    fetch Config.chosen s = .ok i → step s = .next t →
    match i with
    | .add _ _ _ => t.ip = s.ip + 4
    | .mul _ _ _ => t.ip = s.ip + 4
    | .lt _ _ _ => t.ip = s.ip + 4
    | .eq _ _ _ => t.ip = s.ip + 4
    | .inp _ => (s.inq = [] → t.ip = s.ip) ∧ (s.inq ≠ [] → t.ip = s.ip + 2)
    | .out _ => t.ip = s.ip + 2
    | .arb _ => t.ip = s.ip + 2
    | .jt c g => ∃ x y, ReadsTo s c 1 x ∧ ReadsTo s g 2 y ∧
        ((x.toInt ≠ 0 ∧ (t.ip : Int) = y.toInt) ∨ (x.toInt = 0 ∧ t.ip = s.ip + 3))
    | .jf c g => ∃ x y, ReadsTo s c 1 x ∧ ReadsTo s g 2 y ∧
        ((x.toInt = 0 ∧ (t.ip : Int) = y.toInt) ∨ (x.toInt ≠ 0 ∧ t.ip = s.ip + 3))
    | .halt => t.ip = s.ip) ∧
  (∀ s t : State, (s.state = .halted ∨ (s.state = .awaitingInput ∧ s.inq = [])) →
    step s = .next t → t.ip = s.ip) ∧
  (∀ (s t : State) (v : Word), Driver.enqueueInput v s = .ok t → t.ip = s.ip) ∧
  (∀ (s t : State) (o : Option Word), Driver.dequeueOutput s = .ok (o, t) → t.ip = s.ip)

/-- 10_state.md R25: a step changes `rb` only by executing ARB, and no host operation changes it. -/
def Obligations.RelativeBaseIsChangedOnlyByArb : Prop :=
  (∀ s t : State, step s = .next t → t.rb ≠ s.rb → ∃ a, fetch Config.chosen s = .ok (.arb a)) ∧
  (∀ (s t : State) (v : Word), Driver.enqueueInput v s = .ok t → t.rb = s.rb) ∧
  (∀ (s t : State) (o : Option Word), Driver.dequeueOutput s = .ok (o, t) → t.rb = s.rb)

/-- 10_state.md R28, R29, 44_io.md R147: a step takes at most the head of the Input Queue, and only
by IN; it appends at most one value to the Output Queue, and only by OUT. -/
def Obligations.StepMovesQueuesOnlyByInAndOut : Prop :=
  ∀ s t : State, step s = .next t →
    (t.inq = s.inq ∨ ∃ v d, s.inq = v :: t.inq ∧ fetch Config.chosen s = .ok (.inp d)) ∧
    (t.outq = s.outq ∨ ∃ v a, t.outq = s.outq ++ [v] ∧ fetch Config.chosen s = .ok (.out a) ∧
      ReadsTo s a 1 v)

/-- 20_memory.md R48, R57, 46_host_interface.md R177: `len` is constant; a step that writes memory
is one of an instruction with a destination, and the only cell that it may change is the one that
`destParam` names for the instruction's last parameter; the host operations write none. That memory
never grows is the spec's decision D2. -/
def Obligations.MemoryIsWrittenOnlyAtDestinations : Prop :=
  (∀ s t : State, step s = .next t →
    t.mem.len = s.mem.len ∧
    (t.mem ≠ s.mem → ∃ i, fetch Config.chosen s = .ok i ∧ i.destination ≠ none) ∧
    (∀ q : Nat, t.mem.cell q ≠ s.mem.cell q →
      ∃ i d, fetch Config.chosen s = .ok i ∧ i.destination = some d ∧
        destParam d i.modes.length s = .ok (q : Int))) ∧
  (∀ (s t : State) (v : Word), Driver.enqueueInput v s = .ok t → t.mem = s.mem) ∧
  (∀ (s t : State) (o : Option Word), Driver.dequeueOutput s = .ok (o, t) → t.mem = s.mem)

/-! ### What each instruction does -/

/-- 41_arithmetic.md R112: ADD and MUL complete where their parameters resolve, with the exact
integer sum and product reduced to the one 64-bit value congruent modulo 2^64. R112 marks the
two's-complement reading of the wrap as general knowledge (log entry 11). -/
def Obligations.SumAndProductAreExactThenWrapped : Prop :=
  (∀ (s : State) (a b d : Mode) (x y : Word) (p : Nat), s.mem.wf = true →
    ReadsTo s a 1 x → ReadsTo s b 2 y → StoresAt s d 3 p →
    (∃ t, exec (.add a b d) s = .next t ∧ WroteCell s t p (wrap64 (x.toInt + y.toInt)) 4 ∧ t.inq = s.inq) ∧
    (∃ t, exec (.mul a b d) s = .next t ∧ WroteCell s t p (wrap64 (x.toInt * y.toInt)) 4 ∧ t.inq = s.inq)) ∧
  ∀ n : Int, ∃ k : Int, (wrap64 n).toInt = n + k * 2 ^ 64

/-- 42_comparison.md R122: LT and EQ complete where their parameters resolve, and write 1 if the
relation holds of the signed values and 0 if not. -/
def Obligations.ComparisonsWriteOneOrZero : Prop :=
  ∀ (s : State) (a b d : Mode) (x y : Word) (p : Nat), s.mem.wf = true →
    ReadsTo s a 1 x → ReadsTo s b 2 y → StoresAt s d 3 p →
    (∃ t, exec (.lt a b d) s = .next t ∧
      WroteCell s t p (if x.toInt < y.toInt then 1#64 else 0#64) 4 ∧ t.inq = s.inq) ∧
    (∃ t, exec (.eq a b d) s = .next t ∧
      WroteCell s t p (if x.toInt = y.toInt then 1#64 else 0#64) 4 ∧ t.inq = s.inq)

/-- 43_jumps.md R130, R131, R132: both parameters are resolved whether or not the jump is taken; a
taken jump goes exactly to a target that is not negative and raises at a negative one; a target
beyond memory faults at the next fetch. The negative target and the reading of an untaken target are
the spec's decisions D13 and D14. -/
def Obligations.JumpTargetLaw : Prop :=
  (∀ (s : State) (c g : Mode) (x y : Word), ReadsTo s c 1 x → ReadsTo s g 2 y →
    (x.toInt ≠ 0 → 0 ≤ y.toInt → exec (.jt c g) s = .next { s with ip := y.toInt.toNat }) ∧
    (x.toInt ≠ 0 → y.toInt < 0 → exec (.jt c g) s = .fault (.invalidAddress s.ip y.toInt)) ∧
    (x.toInt = 0 → exec (.jt c g) s = .next { s with ip := s.ip + 3 }) ∧
    (x.toInt = 0 → 0 ≤ y.toInt → exec (.jf c g) s = .next { s with ip := y.toInt.toNat }) ∧
    (x.toInt = 0 → y.toInt < 0 → exec (.jf c g) s = .fault (.invalidAddress s.ip y.toInt)) ∧
    (x.toInt ≠ 0 → exec (.jf c g) s = .next { s with ip := s.ip + 3 })) ∧
  (∀ (s : State) (c g : Mode) (x : Word) (z : Int), ReadsTo s c 1 x → BadParam s .read g 2 z →
    exec (.jt c g) s = .fault (.invalidAddress s.ip z) ∧
    exec (.jf c g) s = .fault (.invalidAddress s.ip z)) ∧
  (∀ (s : State) (y : Word), Executing s → (s.mem.len : Int) ≤ y.toInt →
    step { s with ip := y.toInt.toNat } = .fault (.invalidAddress y.toInt.toNat y.toInt))

/-- 40_engine.md R98, 44_io.md R142: with an empty queue IN suspends before it resolves its
destination (nothing is assumed of it), and changes `state` alone; a bad destination faults at the
step that finds a value. The spec marks this as its decision D16. -/
def Obligations.InSuspendsBeforeResolving : Prop :=
  ∀ (s : State) (d : Mode),
    (s.inq = [] → exec (.inp d) s = .next { s with state := .awaitingInput }) ∧
    (∀ x, s.inq ≠ [] → BadParam s .destination d 1 x →
      exec (.inp d) s = .fault (.invalidAddress s.ip x))

/-- 44_io.md R140: with a value queued and a destination inside memory IN completes: it takes the
head, stores it and advances by 2. -/
def Obligations.InTakesTheHeadOfTheQueue : Prop :=
  ∀ (s : State) (d : Mode) (v : Word) (rest : List Word) (p : Nat), s.mem.wf = true →
    s.inq = v :: rest → StoresAt s d 1 p →
    ∃ t, exec (.inp d) s = .next t ∧ WroteCell s t p v 2 ∧ t.inq = rest

/-- 44_io.md R141, R144: OUT completes whatever the Output Queue holds: it appends its operand and
advances by 2. -/
def Obligations.OutAppendsItsOperand : Prop :=
  ∀ (s : State) (a : Mode) (v : Word), ReadsTo s a 1 v →
    exec (.out a) s = .next { s with outq := s.outq ++ [v], ip := s.ip + 2 }

/-- 45_base_and_halt.md R160: ARB completes with `rb + a` wrapped to 64 bits, its operand resolved
with the `rb` from before. The wrap is the spec's decision D12. -/
def Obligations.ArbAddsItsOperandToTheBase : Prop :=
  ∀ (s : State) (a : Mode) (v : Word), ReadsTo s a 1 v →
    exec (.arb a) s = .next { s with rb := wrap64 (s.rb.toInt + v.toInt), ip := s.ip + 2 }

/-- 40_engine.md R99, 45_base_and_halt.md R161: HALT completes in every state, changing `state`
alone; a step that finds OP = 99 halts, whatever its mode digits. The ignored digits are the spec's
decisions D7 and D9. -/
def Obligations.HaltStopsOnOpcode99 : Prop :=
  (∀ s : State, exec .halt s = .next { s with state := .halted }) ∧
  (∀ (c : Config) (s : State), Executing s → s.ip < s.mem.len →
    Int.tmod (s.mem.cell s.ip).toInt 100 = 99 →
    (c.highDigits = .fault → Int.tdiv (s.mem.cell s.ip).toInt 100000 = 0) →
    stepWith c s = .next { s with state := .halted })

/-- 30_encoding.md R70, 60_exceptions.md R201, R207: an instruction that does not wait ends in a
fault exactly if a parameter is bad or a taken jump's target is negative, with the record of the
FIRST of them in the order of the rules; no instruction is refused. The order is the spec's decision
D14, the negative target D13. -/
def Obligations.ExecFaultsExactlyAtTheFirstBadAccess : Prop :=
  ∀ (i : Instr) (s : State),
    (¬ Waits s i → ∀ e : Fault, exec i s = .fault e ↔
      ∃ x, e = .invalidAddress s.ip x ∧ (FirstBad s 1 (paramsOf i) x ∨ NegativeTarget s i x)) ∧
    (∀ r : Refusal, exec i s ≠ .refused r)

/-- 30_encoding.md R71: a Relative address is the unbounded sum `rb + raw`, checked without a wrap,
for a read parameter (OUT) and for a destination (IN). The spec marks this as its decision D11. -/
def Obligations.RelativeAddressesDoNotWrap : Prop :=
  ∀ (s : State) (r : Word), HoldsParam s 1 r →
    (InMemory s (s.rb.toInt + r.toInt) →
      exec (.out .relative) s = .next { s with
        outq := s.outq ++ [s.mem.cell (s.rb.toInt + r.toInt).toNat], ip := s.ip + 2 }) ∧
    (¬ InMemory s (s.rb.toInt + r.toInt) →
      exec (.out .relative) s = .fault (.invalidAddress s.ip (s.rb.toInt + r.toInt))) ∧
    (¬ InMemory s (s.rb.toInt + r.toInt) → s.inq ≠ [] →
      exec (.inp .relative) s = .fault (.invalidAddress s.ip (s.rb.toInt + r.toInt)))

/-! ### Frames -/

/-- 20_memory.md R45, 41_arithmetic.md R110, R111, 42_comparison.md R120, R121: what ADD, MUL, LT and
EQ leave unchanged: every element but `ip`, and every cell but the destination. -/
def Obligations.FrameOfTheFourCellInstructions : Prop :=
  ∀ (i : Instr) (a b d : Mode) (s t : State),
    i ∈ [.add a b d, .mul a b d, .lt a b d, .eq a b d] → exec i s = .next t →
    t.rb = s.rb ∧ t.state = s.state ∧ t.inq = s.inq ∧ t.outq = s.outq ∧ t.fault = s.fault ∧
    t.mem.len = s.mem.len ∧
    ∀ p, destParam d 3 s = .ok p → ∀ q : Nat, (q : Int) ≠ p → t.mem.cell q = s.mem.cell q

/-- 44_io.md R140: what IN leaves unchanged: `rb`, the Output Queue and the fault latch always;
`state` and every cell but the destination where it takes a value; every element but `state` where
it suspends. -/
def Obligations.FrameOfIn : Prop :=
  ∀ (d : Mode) (s t : State), exec (.inp d) s = .next t →
    t.rb = s.rb ∧ t.outq = s.outq ∧ t.fault = s.fault ∧ t.mem.len = s.mem.len ∧
    (s.inq = [] → t.mem = s.mem ∧ t.ip = s.ip ∧ t.inq = s.inq) ∧
    (s.inq ≠ [] → t.state = s.state ∧
      ∀ p, destParam d 1 s = .ok p → ∀ q : Nat, (q : Int) ≠ p → t.mem.cell q = s.mem.cell q)

/-- 43_jumps.md R130, R131, 44_io.md R141, 45_base_and_halt.md R160, R161: what the instructions
that store nothing leave unchanged: all of memory, the Input Queue and the fault latch, and every
other element but the one each is for. -/
def Obligations.FrameOfTheInstructionsThatStoreNothing : Prop :=
  ∀ (s t : State) (m g : Mode),
    (exec (.out m) s = .next t →
      t.mem = s.mem ∧ t.rb = s.rb ∧ t.state = s.state ∧ t.inq = s.inq ∧ t.fault = s.fault) ∧
    (exec (.arb m) s = .next t →
      t.mem = s.mem ∧ t.state = s.state ∧ t.inq = s.inq ∧ t.outq = s.outq ∧ t.fault = s.fault) ∧
    (exec (.jt m g) s = .next t →
      t.mem = s.mem ∧ t.rb = s.rb ∧ t.state = s.state ∧ t.inq = s.inq ∧ t.outq = s.outq ∧
      t.fault = s.fault) ∧
    (exec (.jf m g) s = .next t →
      t.mem = s.mem ∧ t.rb = s.rb ∧ t.state = s.state ∧ t.inq = s.inq ∧ t.outq = s.outq ∧
      t.fault = s.fault) ∧
    (exec .halt s = .next t →
      t.mem = s.mem ∧ t.ip = s.ip ∧ t.rb = s.rb ∧ t.inq = s.inq ∧ t.outq = s.outq ∧
      t.fault = s.fault)

/-! ### Memory -/

/-- 20_memory.md R44, R45: MemRead and MemWrite: the bounds fault outside memory, the cell's value
inside, and after a write that value in that cell, every other cell and `len` as before. -/
def Obligations.MemReadAndMemWriteLaw : Prop :=
  ∀ (s : State) (a : Int) (v : Word),
    (a < 0 ∨ (s.mem.len : Int) ≤ a →
      memRead s a = .error (.invalidAddress s.ip a) ∧ memWrite s a v = .error (.invalidAddress s.ip a)) ∧
    (0 ≤ a → a < s.mem.len → memRead s a = .ok (s.mem.cell a.toNat)) ∧
    (s.mem.wf = true → 0 ≤ a → a < s.mem.len →
      ∃ t, memWrite s a v = .ok t ∧ memRead t a = .ok v ∧
        (∀ b : Int, b ≠ a → memRead t b = memRead s b) ∧ t.mem.len = s.mem.len ∧
        t.ip = s.ip ∧ t.rb = s.rb ∧ t.state = s.state ∧ t.inq = s.inq ∧ t.outq = s.outq ∧
        t.fault = s.fault)

/-- 20_memory.md R54: a value written to memory is what every later fetch of that cell gets, as an
opcode word and as a parameter word. R54 marks it as derived from the source's example. -/
def Obligations.LaterFetchesSeeTheStore : Prop :=
  ∀ (c : Config) (s t u : State) (a : Int) (v : Word), s.mem.wf = true →
    memWrite s a v = .ok t → u.mem = t.mem →
    ((u.ip : Int) = a →
      (∀ i, decodeWord c v = .ok i → fetch c u = .ok i) ∧
      (∀ e, decodeWord c v = .error e →
        fetch c u = .error (.unsupportedOpcode u.ip v (Int.tmod v.toInt 100)))) ∧
    (∀ k : Nat, ((u.ip + k : Nat) : Int) = a → rawParam k u = .ok v)

/-! ### Invariants -/

/-- The invariant of Safety.lean holds after reset. What `State.reset` is, is the model's choice
(log entry 2). -/
def Obligations.ResetSatisfiesTheInvariant : Prop := State.reset.Inv

/-- It holds after every construction (70_reset_and_hazards.md R220). -/
def Obligations.ConstructionSatisfiesTheInvariant : Prop :=
  ∀ (P : List Word) (pad : Bool), (State.new P pad).Inv

/-- Every step keeps it: memory stays in canonical form, no fault is latched along next states,
nothing has happened before the first step, a waiting CORE stands on an IN and a halted one on a
HALT word (10_state.md R30, 40_engine.md R91, R95, R98, 45_base_and_halt.md R161). -/
def Obligations.StepKeepsTheInvariant : Prop :=
  ∀ s t : State, s.Inv → step s = .next t → t.Inv

/-- The host's transactions keep it. -/
def Obligations.TransactionsKeepTheInvariant : Prop :=
  ∀ s : State, s.Inv →
    (∀ v t, Driver.enqueueInput v s = .ok t → t.Inv) ∧
    (∀ o t, Driver.dequeueOutput s = .ok (o, t) → t.Inv) ∧
    (∀ n t, Driver.run n s = .returned .ok t → t.Inv)

/-! ### The host interface -/

/-- 46_host_interface.md R172: enqueue_input appends in every state but `Halted`, where it is
dropped, and changes nothing else. That `AwaitingInput` stays at the enqueue is the spec's decision
D17 (R95), and the refusal after a fault its decision D15 (R178). -/
def Obligations.EnqueueInputAppendsUnlessHalted : Prop :=
  ∀ (s : State) (v : Word),
    (s.fault = none → s.state = .halted → Driver.enqueueInput v s = .ok s) ∧
    (s.fault = none → s.state ≠ .halted →
      Driver.enqueueInput v s = .ok { s with inq := s.inq ++ [v] }) ∧
    (s.fault ≠ none → Driver.enqueueInput v s = .error .discarded)

/-- 46_host_interface.md R173: dequeue_output takes the oldest output in every state, and changes
nothing else. The refusal after a fault is the spec's decision D15 (R178). -/
def Obligations.DequeueOutputTakesTheOldest : Prop :=
  ∀ s : State,
    (s.fault = none → s.outq = [] → Driver.dequeueOutput s = .ok (none, s)) ∧
    (∀ v rest, s.fault = none → s.outq = v :: rest →
      Driver.dequeueOutput s = .ok (some v, { s with outq := rest })) ∧
    (s.fault ≠ none → Driver.dequeueOutput s = .error .discarded)

/-- 46_host_interface.md R178: every transaction but inspect_memory is refused on a CORE whose fault
is latched. The spec marks this as its decision D15. -/
def Obligations.FaultedCoreRefusesTransactions : Prop :=
  ∀ (s : State) (e : Fault), s.fault = some e →
    (∀ v, Driver.enqueueInput v s = .error .discarded) ∧
    Driver.dequeueOutput s = .error .discarded ∧
    (∀ n, Driver.run n s = .refused .discarded) ∧
    Driver.currentState s = .error .discarded ∧
    Driver.clone s = .error .discarded ∧
    Driver.stepRequest s = .error .discarded

/-- 10_state.md R30, 40_engine.md R102: a step that raises an error latches its record, by the step
transaction and by a run, and the CORE has no step from then on. The latch is the spec's decision
D15. -/
def Obligations.ErrorsAreLatched : Prop :=
  ∀ (s t : State) (e : Fault),
    (step s = .fault e → ∃ u, Driver.stepRequest s = .ok (.err e, u) ∧ u.fault = some e) ∧
    (Driver.stepRequest s = .ok (.err e, t) → step s = .fault e ∧ t.fault = some e ∧
      step t = .refused .discarded) ∧
    (∀ n, Driver.run n s = .returned (.err e) t → t.fault = some e ∧ step t = .refused .discarded)

/-- 46_host_interface.md R179: inspect_memory gives the cell for an address inside memory and none
otherwise, in every state. The transaction is the spec's addition, D25. -/
def Obligations.InspectMemoryReadsOneCell : Prop :=
  ∀ (s : State) (a : Int), s.fault = none →
    (0 ≤ a → a < s.mem.len → Driver.inspectMemory a s = some (s.mem.cell a.toNat)) ∧
    (a < 0 ∨ (s.mem.len : Int) ≤ a → Driver.inspectMemory a s = none)

/-- 40_engine.md R101, R102, 46_host_interface.md R175: a run that returns Ok leaves the CORE
`Halted` or `AwaitingInput`, and current_state says which; one that returns an error leaves it
latched. That a run is watched for `n` steps is the model's choice (log entry 6). -/
def Obligations.RunReturnsOnlyAtRestOrWithAnError : Prop :=
  ∀ (n : Nat) (s t : State) (r : Driver.Report), Driver.run n s = .returned r t →
    (r = .ok ∧ t.fault = none ∧
      (Driver.currentState t = .ok .halted ∨ Driver.currentState t = .ok .awaitingInput)) ∨
    (∃ e, r = .err e ∧ t.fault = some e)

/-- 40_engine.md R101, R105: a run on a CORE that is halted, or waits with an empty queue, is one
no-op step that returns Ok. R101 marks it as derived from R92 and R95. -/
def Obligations.RunAtRestIsANoOp : Prop :=
  ∀ (n : Nat) (s : State), s.fault = none →
    (s.state = .halted ∨ (s.state = .awaitingInput ∧ s.inq = [])) →
    Driver.run (n + 1) s = .returned .ok s

/-- 40_engine.md R103: what a run returns does not depend on how long it is watched. A function
under fuel is the model's choice (log entry 6), which the spec's decision D29 allows. -/
def Obligations.RunReturnsTheSameHoweverLongWatched : Prop :=
  ∀ (n m : Nat) (s t : State) (r : Driver.Report), n ≤ m →
    Driver.run n s = .returned r t → Driver.run m s = .returned r t

/-- 46_host_interface.md R183, 40_engine.md R101: a run that returns Ok equals a sequence of one or
more steps, of which only the last leaves the CORE `Halted` or `AwaitingInput`. `step` as a
transaction is the spec's decision D24, the fuel the model's choice (log entry 6). -/
def Obligations.RunEqualsASequenceOfSteps : Prop :=
  ∀ (n : Nat) (s t : State), Driver.run n s = .returned .ok t →
    ∃ k, k < n ∧ stepTimes (k + 1) s = some t ∧ (t.state = .halted ∨ t.state = .awaitingInput) ∧
      ∀ j, j < k → ∃ u, stepTimes (j + 1) s = some u ∧ u.state ≠ .halted ∧ u.state ≠ .awaitingInput

/-- 00_scope.md R5, 44_io.md R146: suspension loses and duplicates nothing. If a run suspends, the
host then queues a value and the next run returns, then one run with the value queued beforehand
returns the same, in the same state. (After an error the state is unspecified, so only the report is
the same.) R146 marks it as derived from R140 and R98. -/
def Obligations.FeedingLaterEqualsFeedingFirst : Prop :=
  ∀ (n m : Nat) (s t t' u : State) (v : Word) (r : Driver.Report),
    Driver.run n s = .returned .ok t → t.state = .awaitingInput →
    Driver.enqueueInput v t = .ok t' → Driver.run m t' = .returned r u →
    ∃ s' k, Driver.enqueueInput v s = .ok s' ∧
      (r = .ok → Driver.run k s' = .returned .ok u) ∧
      (∀ e, r = .err e → ∃ u', Driver.run k s' = .returned (.err e) u')

/-- 44_io.md R145, 46_host_interface.md R177: what the Output Queue holds has no influence on the
engine, so it makes no difference when the driver takes values out of it. R177 marks it as derived
from R170. -/
def Obligations.OutputQueueDoesNotInfluenceTheStep : Prop :=
  ∀ (s : State) (q : List Word),
    (∀ t, step s = .next t →
      ∃ o, t.outq = s.outq ++ o ∧ step { s with outq := q } = .next { t with outq := q ++ o }) ∧
    (∀ e, step s = .fault e → step { s with outq := q } = .fault e)

/-- 46_host_interface.md R181, 70_reset_and_hazards.md R225: the hand-off moves every output of the
first CORE to the second one's Input Queue, in FIFO order, and changes nothing else; a halted
receiver drops them. -/
def Obligations.HandOffMovesOutputsInOrder : Prop :=
  ∀ a b : State, a.fault = none → b.fault = none →
    (b.state ≠ .halted →
      Driver.handOff a b = .ok ({ a with outq := [] }, { b with inq := b.inq ++ a.outq })) ∧
    (b.state = .halted → Driver.handOff a b = .ok ({ a with outq := [] }, b))

/-- 10_state.md R31, 46_host_interface.md R176: a transaction changes no CORE but the one it is sent
to, and neither does a run that goes on; a clone is a copy of the whole state at a place of its own,
refused after a fault. The refusal is the spec's decision D15 (R178). The list of COREs, one order
of all requests, and that a refused clone leaves the list as it is, are the model's choice (log
entry 10). -/
def Obligations.TransactionsOnOneCoreLeaveTheOthers : Prop :=
  (∀ (fleet : List Fleet.Member) (k j : Nat) (r : Fleet.Request) (m : Fleet.Member), j ≠ k →
    fleet[j]? = some m → (Fleet.apply (.send k r) fleet).2[j]? = some m) ∧
  (∀ (fleet : List Fleet.Member) (k j n : Nat) (m : Fleet.Member), j ≠ k →
    fleet[j]? = some m → (Fleet.apply (.goOn k n) fleet).2[j]? = some m) ∧
  (∀ (fleet : List Fleet.Member) (P : List Word) (pad : Bool) (j : Nat) (m : Fleet.Member),
    fleet[j]? = some m → (Fleet.apply (.new P pad) fleet).2[j]? = some m) ∧
  (∀ (fleet : List Fleet.Member) (k : Nat) (s : State), fleet[k]? = some (Fleet.idle s) →
    (s.fault = none →
      Fleet.apply (.send k .clone) fleet = (.made fleet.length, fleet ++ [Fleet.idle s])) ∧
    (s.fault ≠ none → Fleet.apply (.send k .clone) fleet = (.refused .discarded, fleet)))

/-! ### Assembly -/

/-- 30_encoding.md R77, R78: the cells of an instruction, its labels standing for any addresses,
disassemble, whatever follows them, to an instruction of the same operation and modes without a
`raw` comment, which assembles to these cells again, and which is the one they came from if that has
no labels and writes what follows `[rb` as a listing does; a refused word is printed as `.word w`; a
word whose ignored digits do not come back is printed with its `raw` comment. The notation is the
spec's decision D21; which of two spellings of an offset a listing has is the model's choice (log
entry 8). -/
def Obligations.DisassemblyUndoesAssembly : Prop :=
  (∀ (c : Config) (table : List (String × Nat)) (i : Assembly.Insn) (ws more : List Word),
    Assembly.itemCells table (.insn i) = .ok ws →
    ∃ w tail j, ws = w :: tail ∧
      Assembly.disassembleOne c w (tail ++ more) = ({ item := .insn j, raw := none }, ws.length) ∧
      Assembly.instr j = Assembly.instr i ∧
      Assembly.itemCells [] (.insn j) = .ok ws ∧
      (table = [] → (∀ o ∈ Assembly.offsets i, ∃ v, o = Assembly.signedOf v) → j = i)) ∧
  (∀ (c : Config) (w : Word) (more : List Word) (e : DecodeRefusal), decodeWord c w = .error e →
    Assembly.disassembleOne c w more = ({ item := .word (.literal w.toInt), raw := none }, 1)) ∧
  (∀ (c : Config) (w : Word) (more : List Word) (i : Instr), decodeWord c w = .ok i →
    i.wellFormedUnder .fault = true → i.modes.length ≤ more.length → encodeWord i ≠ w →
    (Assembly.disassembleOne c w more).1.raw = some w)

/-- 30_encoding.md R77: the word of a Relative operand: for `[rb+x]` the address of the label `x`, for
`[rb-x]` minus that address, for `[rb+n]` the number and for `[rb-n]` its negative, each where it is
an i64; so for `[rb-1]` it is −1. The syntax is the spec's decision D21. -/
def Obligations.OffsetWords : Prop :=
  (∀ (table : List (String × Nat)) (x : String) (a : Nat), table.lookup x = some a → a < 2 ^ 63 →
    (∃ w, Assembly.signedCell table (.plus (.label x)) = .ok w ∧ w.toInt = a) ∧
    (∃ w, Assembly.signedCell table (.minus (.label x)) = .ok w ∧ w.toInt = -(a : Int))) ∧
  (∀ (table : List (String × Nat)) (v : Int), -(2 ^ 63) < v → v < 2 ^ 63 →
    (∃ w, Assembly.signedCell table (.plus (.literal v)) = .ok w ∧ w.toInt = v) ∧
    (∃ w, Assembly.signedCell table (.minus (.literal v)) = .ok w ∧ w.toInt = -v))

/-! ### A run in progress -/

/-- 46_host_interface.md R170, 20_memory.md R52: while a run on a CORE is in progress, which is from
its beginning until it returns, no transaction on that CORE begins: not even `inspect_memory` reads
it. That transactions are atomic and ordered is the spec's decision D20; the answer `busy`, and the
fuel, are the model's choice (log entry 6). -/
def Obligations.NoTransactionBeginsDuringARun : Prop :=
  (∀ (fleet : List Fleet.Member) (k : Nat) (m : Fleet.Member) (r : Fleet.Request),
    fleet[k]? = some m → m.inRun = true → Fleet.apply (.send k r) fleet = (.busy, fleet)) ∧
  (∀ (fleet : List Fleet.Member) (k n : Nat) (s : State), fleet[k]? = some (Fleet.idle s) →
    (∀ u, Driver.run n s = .unfinished u →
      Fleet.apply (.send k (.run n)) fleet = (.unfinished, fleet.set k { core := u, inRun := true })) ∧
    (∀ r u, Driver.run n s = .returned r u →
      Fleet.apply (.send k (.run n)) fleet = (.report r, fleet.set k (Fleet.idle u))))

/-- 46_host_interface.md R170, 40_engine.md R101: a run that is in progress and goes on is one run:
watched for `n` steps and then for `m` more, it gives what it gives watched for `n + m`. The fuel is
the model's choice (log entry 6), which the spec's decision D29 allows. -/
def Obligations.ARunWatchedInPartsIsOneRun : Prop :=
  ∀ (fleet : List Fleet.Member) (k n m : Nat) (s : State), fleet[k]? = some (Fleet.idle s) →
    (Fleet.apply (.send k (.run n)) fleet).1 = .unfinished →
    Fleet.apply (.goOn k m) (Fleet.apply (.send k (.run n)) fleet).2 =
      Fleet.apply (.send k (.run (n + m))) fleet
end

