-- ==== Sys2Proof/Laws/Assembly.lean ====
section
/-! SUPPORT. When an integer of the assembler syntax has a cell, and that a cell printed as an offset
is read back. -/

namespace Sys2Proof.Machine.Assembly

/-- An integer has exactly the cell of its value. -/
theorem intCell_ok_iff {v : Int} {w : Word} : intCell v = .ok w ↔ w.toInt = v := by
  unfold intCell isI64
  constructor
  · intro h
    split at h
    · rename_i h'; cases h; simpa using h'
    · cases h
  · rintro rfl
    simp [wrap64]

/-- A cell's value is an i64 literal of that cell. -/
theorem signedCell_plus_self (table : List (String × Nat)) (w : Word) :
    signedCell table (.plus (.literal w.toInt)) = .ok w := by
  simp [signedCell, numberValue, isI64, wrap64, intCell_ok_iff]

/-- A printed offset assembles to the cell it was printed from. -/
theorem signedCell_signedOf (table : List (String × Nat)) (w : Word) :
    signedCell table (signedOf w) = .ok w := by
  unfold signedOf
  split
  · rename_i h
    simp only [Bool.and_eq_true, decide_eq_true_eq] at h
    simp [signedCell, numberValue, h.2, intCell_ok_iff]
  · exact signedCell_plus_self table w

end Sys2Proof.Machine.Assembly
end

