-- ==== Sys2Proof/Laws/Decode.lean ====
section
/-! SUPPORT. The decoder, check by check: what each check accepts, when a word decodes to an
instruction, and the fields of a word in terms of `/` and `%`. -/

namespace Sys2Proof

theorem modeOf_eq_some_iff {d : Int} {m : Mode} : modeOf d = some m ↔ d = (m.digit : Int) := by
  unfold modeOf
  cases m <;> simp only [Mode.digit] <;> split_ifs <;> simp_all

theorem modeOf_eq_none_iff {d : Int} : modeOf d = none ↔ d ≠ 0 ∧ d ≠ 1 ∧ d ≠ 2 := by
  unfold modeOf
  split_ifs <;> simp_all

theorem readMode_ok_iff {k : Nat} {d : Int} {m : Mode} :
    readMode k d = .ok m ↔ d = (m.digit : Int) := by
  rw [← modeOf_eq_some_iff]
  unfold readMode
  cases modeOf d <;> simp

theorem destMode_ok_iff {c : Config} {k : Nat} {d : Int} {m : Mode} :
    destMode c k d = .ok m ↔ d = (m.digit : Int) ∧ (m = .immediate → c.immWrite = .asPosition) := by
  rw [← modeOf_eq_some_iff]
  unfold destMode
  cases modeOf d with
  | none => simp
  | some x => cases x <;> cases c.immWrite <;> cases m <;> simp

theorem operationOf_eq_some_iff {x : Int} {o : Operation} :
    operationOf x = some o ↔ x = (o.code : Int) := by
  constructor
  · intro h
    unfold operationOf at h
    repeat' split at h
    all_goals cases h
    all_goals assumption
  · rintro rfl
    cases o <;> rfl

theorem operationOf_eq_none_iff {x : Int} :
    operationOf x = none ↔ x ∉ [1, 2, 3, 4, 5, 6, 7, 8, 9, 99] := by
  unfold operationOf
  split_ifs <;> simp_all

theorem highDigitsRefused_eq_false_iff {c : Config} {f : Fields} :
    highDigitsRefused c f = false ↔ (c.highDigits = .fault → f.hi = 0) := by
  unfold highDigitsRefused
  cases c.highDigits <;> simp

theorem bind_ok_iff {ε α β : Type} {x : Except ε α} {g : α → Except ε β} {b : β} :
    (x >>= g) = .ok b ↔ ∃ a, x = .ok a ∧ g a = .ok b := by
  cases x with
  | error e => simp [bind, Except.bind]
  | ok a => simp [bind, Except.bind]

theorem pure_ok_iff {ε α : Type} {a b : α} : (pure a : Except ε α) = .ok b ↔ a = b := by
  simp [pure, Except.pure]

theorem instrOf_operation {c : Config} {f : Fields} {o : Operation} {i : Instr}
    (h : instrOf c f o = .ok i) : i.operation = o := by
  cases o <;> simp only [instrOf, bind_ok_iff, pure_ok_iff] at h
  case halt => cases h; rfl
  all_goals
    obtain ⟨_, _, _, _, _, _, rfl⟩ := h
    rfl

/-- The mode digits of the fields are those of these modes, parameter 1 first. -/
def modesMatch (f : Fields) : List Mode → Prop
  | [] => True
  | [a] => f.m1 = (a.digit : Int)
  | [a, b] => f.m1 = (a.digit : Int) ∧ f.m2 = (b.digit : Int)
  | a :: b :: d :: _ => f.m1 = (a.digit : Int) ∧ f.m2 = (b.digit : Int) ∧ f.m3 = (d.digit : Int)

/-- The mode checks pass exactly on the instruction whose modes the digits spell, if it is
well-formed. -/
theorem instrOf_ok_iff {c : Config} {f : Fields} {i : Instr} :
    instrOf c f i.operation = .ok i ↔
      modesMatch f i.modes ∧ i.wellFormedUnder c.immWrite = true := by
  cases i <;>
    simp [instrOf, Instr.operation, Instr.modes, Instr.wellFormedUnder, Instr.destination,
      modesMatch, bind_ok_iff, pure_ok_iff, readMode_ok_iff, destMode_ok_iff, imp_iff_not_or,
      and_assoc, -bind_pure_comp]

/-- A word decodes to an instruction exactly if its three checks pass on that instruction. -/
theorem decodeWord_ok_iff {c : Config} {w : Word} {i : Instr} :
    decodeWord c w = .ok i ↔ (fields w).op = (i.operation.code : Int) ∧
      (c.highDigits = .fault → (fields w).hi = 0) ∧ instrOf c (fields w) i.operation = .ok i := by
  rw [← operationOf_eq_some_iff, ← highDigitsRefused_eq_false_iff]
  unfold decodeWord
  cases ho : operationOf (fields w).op with
  | none => simp
  | some o =>
    cases hh : highDigitsRefused c (fields w) with
    | true => simp
    | false =>
      simp only [Bool.false_eq_true, if_false, Option.some.injEq, true_and]
      constructor
      · intro h
        have := instrOf_operation h
        subst this
        exact ⟨rfl, h⟩
      · rintro ⟨rfl, h⟩
        exact h

/-- The fields of a word that is not negative. -/
theorem fields_of_nonneg {w : Word} (h : 0 ≤ w.toInt) :
    fields w = { op := w.toInt % 100, m1 := w.toInt / 100 % 10, m2 := w.toInt / 1000 % 10,
                 m3 := w.toInt / 10000 % 10, hi := w.toInt / 100000 } := by
  have hd : ∀ k : Int, 0 ≤ k → 0 ≤ w.toInt / k := fun k hk => Int.ediv_nonneg h hk
  simp [fields, digit, trem, tdiv, Int.tmod_eq_emod_of_nonneg, Int.tdiv_eq_ediv_of_nonneg, h, hd]

/-- The fields of a negative word are those of its absolute value, negated. -/
theorem fields_of_neg {w : Word} {n : Int} (h : w.toInt = -n) (hn : 0 ≤ n) :
    fields w = { op := -(n % 100), m1 := -(n / 100 % 10), m2 := -(n / 1000 % 10),
                 m3 := -(n / 10000 % 10), hi := -(n / 100000) } := by
  have hd : ∀ k : Int, 0 ≤ k → 0 ≤ n / k := fun k hk => Int.ediv_nonneg hn hk
  simp [fields, digit, trem, tdiv, h, Int.neg_tdiv, Int.neg_tmod, Int.tmod_eq_emod_of_nonneg,
    Int.tdiv_eq_ediv_of_nonneg, hn, hd]

end Sys2Proof
end

