-- ==== Sys2Proof/Laws/State.lean ====
section
/-! SUPPORT. One lemma per state element per update, so that no proof unfolds a record update. -/

namespace Sys2Proof.Machine

@[simp] theorem State.setMem_mem (v : Memory) (s : State) : (s.setMem v).mem = v := rfl
@[simp] theorem State.setMem_ip (v : Memory) (s : State) : (s.setMem v).ip = s.ip := rfl
@[simp] theorem State.setMem_rb (v : Memory) (s : State) : (s.setMem v).rb = s.rb := rfl
@[simp] theorem State.setMem_state (v : Memory) (s : State) : (s.setMem v).state = s.state := rfl
@[simp] theorem State.setMem_inq (v : Memory) (s : State) : (s.setMem v).inq = s.inq := rfl
@[simp] theorem State.setMem_outq (v : Memory) (s : State) : (s.setMem v).outq = s.outq := rfl
@[simp] theorem State.setMem_fault (v : Memory) (s : State) : (s.setMem v).fault = s.fault := rfl

@[simp] theorem State.setIp_mem (v : Nat) (s : State) : (s.setIp v).mem = s.mem := rfl
@[simp] theorem State.setIp_ip (v : Nat) (s : State) : (s.setIp v).ip = v := rfl
@[simp] theorem State.setIp_rb (v : Nat) (s : State) : (s.setIp v).rb = s.rb := rfl
@[simp] theorem State.setIp_state (v : Nat) (s : State) : (s.setIp v).state = s.state := rfl
@[simp] theorem State.setIp_inq (v : Nat) (s : State) : (s.setIp v).inq = s.inq := rfl
@[simp] theorem State.setIp_outq (v : Nat) (s : State) : (s.setIp v).outq = s.outq := rfl
@[simp] theorem State.setIp_fault (v : Nat) (s : State) : (s.setIp v).fault = s.fault := rfl

@[simp] theorem State.setRb_mem (v : Word) (s : State) : (s.setRb v).mem = s.mem := rfl
@[simp] theorem State.setRb_ip (v : Word) (s : State) : (s.setRb v).ip = s.ip := rfl
@[simp] theorem State.setRb_rb (v : Word) (s : State) : (s.setRb v).rb = v := rfl
@[simp] theorem State.setRb_state (v : Word) (s : State) : (s.setRb v).state = s.state := rfl
@[simp] theorem State.setRb_inq (v : Word) (s : State) : (s.setRb v).inq = s.inq := rfl
@[simp] theorem State.setRb_outq (v : Word) (s : State) : (s.setRb v).outq = s.outq := rfl
@[simp] theorem State.setRb_fault (v : Word) (s : State) : (s.setRb v).fault = s.fault := rfl

@[simp] theorem State.setState_mem (v : ExecState) (s : State) : (s.setState v).mem = s.mem := rfl
@[simp] theorem State.setState_ip (v : ExecState) (s : State) : (s.setState v).ip = s.ip := rfl
@[simp] theorem State.setState_rb (v : ExecState) (s : State) : (s.setState v).rb = s.rb := rfl
@[simp] theorem State.setState_state (v : ExecState) (s : State) : (s.setState v).state = v := rfl
@[simp] theorem State.setState_inq (v : ExecState) (s : State) : (s.setState v).inq = s.inq := rfl
@[simp] theorem State.setState_outq (v : ExecState) (s : State) : (s.setState v).outq = s.outq := rfl
@[simp] theorem State.setState_fault (v : ExecState) (s : State) : (s.setState v).fault = s.fault := rfl

@[simp] theorem State.setInq_mem (v : List Word) (s : State) : (s.setInq v).mem = s.mem := rfl
@[simp] theorem State.setInq_ip (v : List Word) (s : State) : (s.setInq v).ip = s.ip := rfl
@[simp] theorem State.setInq_rb (v : List Word) (s : State) : (s.setInq v).rb = s.rb := rfl
@[simp] theorem State.setInq_state (v : List Word) (s : State) : (s.setInq v).state = s.state := rfl
@[simp] theorem State.setInq_inq (v : List Word) (s : State) : (s.setInq v).inq = v := rfl
@[simp] theorem State.setInq_outq (v : List Word) (s : State) : (s.setInq v).outq = s.outq := rfl
@[simp] theorem State.setInq_fault (v : List Word) (s : State) : (s.setInq v).fault = s.fault := rfl

@[simp] theorem State.setOutq_mem (v : List Word) (s : State) : (s.setOutq v).mem = s.mem := rfl
@[simp] theorem State.setOutq_ip (v : List Word) (s : State) : (s.setOutq v).ip = s.ip := rfl
@[simp] theorem State.setOutq_rb (v : List Word) (s : State) : (s.setOutq v).rb = s.rb := rfl
@[simp] theorem State.setOutq_state (v : List Word) (s : State) : (s.setOutq v).state = s.state := rfl
@[simp] theorem State.setOutq_inq (v : List Word) (s : State) : (s.setOutq v).inq = s.inq := rfl
@[simp] theorem State.setOutq_outq (v : List Word) (s : State) : (s.setOutq v).outq = v := rfl
@[simp] theorem State.setOutq_fault (v : List Word) (s : State) : (s.setOutq v).fault = s.fault := rfl

@[simp] theorem State.setFault_mem (v : Option Fault) (s : State) : (s.setFault v).mem = s.mem := rfl
@[simp] theorem State.setFault_ip (v : Option Fault) (s : State) : (s.setFault v).ip = s.ip := rfl
@[simp] theorem State.setFault_rb (v : Option Fault) (s : State) : (s.setFault v).rb = s.rb := rfl
@[simp] theorem State.setFault_state (v : Option Fault) (s : State) : (s.setFault v).state = s.state := rfl
@[simp] theorem State.setFault_inq (v : Option Fault) (s : State) : (s.setFault v).inq = s.inq := rfl
@[simp] theorem State.setFault_outq (v : Option Fault) (s : State) : (s.setFault v).outq = s.outq := rfl
@[simp] theorem State.setFault_fault (v : Option Fault) (s : State) : (s.setFault v).fault = v := rfl

@[simp] theorem State.pushInput_mem (v : Word) (s : State) : (s.pushInput v).mem = s.mem := rfl
@[simp] theorem State.pushInput_ip (v : Word) (s : State) : (s.pushInput v).ip = s.ip := rfl
@[simp] theorem State.pushInput_rb (v : Word) (s : State) : (s.pushInput v).rb = s.rb := rfl
@[simp] theorem State.pushInput_state (v : Word) (s : State) : (s.pushInput v).state = s.state := rfl
@[simp] theorem State.pushInput_inq (v : Word) (s : State) : (s.pushInput v).inq = s.inq ++ [v] := rfl
@[simp] theorem State.pushInput_outq (v : Word) (s : State) : (s.pushInput v).outq = s.outq := rfl
@[simp] theorem State.pushInput_fault (v : Word) (s : State) : (s.pushInput v).fault = s.fault := rfl

@[simp] theorem State.pushOutput_mem (v : Word) (s : State) : (s.pushOutput v).mem = s.mem := rfl
@[simp] theorem State.pushOutput_ip (v : Word) (s : State) : (s.pushOutput v).ip = s.ip := rfl
@[simp] theorem State.pushOutput_rb (v : Word) (s : State) : (s.pushOutput v).rb = s.rb := rfl
@[simp] theorem State.pushOutput_state (v : Word) (s : State) : (s.pushOutput v).state = s.state := rfl
@[simp] theorem State.pushOutput_inq (v : Word) (s : State) : (s.pushOutput v).inq = s.inq := rfl
@[simp] theorem State.pushOutput_outq (v : Word) (s : State) : (s.pushOutput v).outq = s.outq ++ [v] := rfl
@[simp] theorem State.pushOutput_fault (v : Word) (s : State) : (s.pushOutput v).fault = s.fault := rfl

@[simp] theorem advance_mem (o : Operation) (s : State) : (advance o s).mem = s.mem := rfl
@[simp] theorem advance_ip (o : Operation) (s : State) : (advance o s).ip = s.ip + o.length := rfl
@[simp] theorem advance_rb (o : Operation) (s : State) : (advance o s).rb = s.rb := rfl
@[simp] theorem advance_state (o : Operation) (s : State) : (advance o s).state = s.state := rfl
@[simp] theorem advance_inq (o : Operation) (s : State) : (advance o s).inq = s.inq := rfl
@[simp] theorem advance_outq (o : Operation) (s : State) : (advance o s).outq = s.outq := rfl
@[simp] theorem advance_fault (o : Operation) (s : State) : (advance o s).fault = s.fault := rfl

@[simp] theorem State.latch_fault (e : Fault) (s : State) : (s.latch e).fault = some e := rfl

end Sys2Proof.Machine
end

