-- ==== Sys2Proof/Laws/Memory.lean ====
section
/-! SUPPORT. Memory as data: the canonical form is kept by every memory operation, a read after a
store, and what construction lists. -/

namespace Sys2Proof.Machine

theorem cellsOk_mono {len lo lo' : Nat} (hlo : lo' ≤ lo) :
    ∀ {cells : List (Nat × Word)}, cellsOk len lo cells = true → cellsOk len lo' cells = true
  | [], _ => rfl
  | (a, v) :: rest, h => by
    simp only [cellsOk, Bool.and_eq_true, decide_eq_true_eq] at h ⊢
    exact ⟨⟨⟨by omega, h.1.1.2⟩, h.1.2⟩, h.2⟩

theorem lookupCell_below {len k : Nat} :
    ∀ {lo : Nat} {cells : List (Nat × Word)}, cellsOk len lo cells = true → k < lo →
      lookupCell k cells = 0#64
  | _, [], _, _ => rfl
  | lo, (a, v) :: rest, h, hk => by
    simp only [cellsOk, Bool.and_eq_true, decide_eq_true_eq] at h
    have hne : a ≠ k := by omega
    simpa [lookupCell, hne] using lookupCell_below h.2 (by omega)

theorem lookupCell_above {len k : Nat} (hk : len ≤ k) :
    ∀ {lo : Nat} {cells : List (Nat × Word)}, cellsOk len lo cells = true → lookupCell k cells = 0#64
  | _, [], _ => rfl
  | lo, (a, v) :: rest, h => by
    simp only [cellsOk, Bool.and_eq_true, decide_eq_true_eq] at h
    have hne : a ≠ k := by omega
    simpa [lookupCell, hne] using lookupCell_above hk h.2

theorem storeCell_ok {len k : Nat} {v : Word} (hk : k < len) :
    ∀ {lo : Nat} {cells : List (Nat × Word)}, cellsOk len lo cells = true → lo ≤ k →
      cellsOk len lo (storeCell k v cells) = true
  | lo, [], _, hlo => by
    by_cases hv : v = 0#64 <;> simp [storeCell, cellsOk, hv, hk, hlo]
  | lo, (a, u) :: rest, h, hlo => by
    have h' := h
    simp only [cellsOk, Bool.and_eq_true, decide_eq_true_eq] at h'
    obtain ⟨⟨⟨h1, h2⟩, h3⟩, h4⟩ := h'
    unfold storeCell
    split
    · split
      · exact h
      · rename_i hlt hv
        simp only [cellsOk, Bool.and_eq_true, decide_eq_true_eq]
        exact ⟨⟨⟨hlo, hk⟩, hv⟩, ⟨⟨by omega, h2⟩, h3⟩, h4⟩
    · split
      · rename_i hnlt heq
        split
        · exact cellsOk_mono (by omega) h4
        · rename_i hv
          simp only [cellsOk, Bool.and_eq_true, decide_eq_true_eq]
          exact ⟨⟨⟨hlo, hk⟩, hv⟩, by rw [heq]; exact h4⟩
      · rename_i hnlt hne
        simp only [cellsOk, Bool.and_eq_true, decide_eq_true_eq]
        exact ⟨⟨⟨h1, h2⟩, h3⟩, storeCell_ok hk h4 (by omega)⟩

theorem lookupCell_storeCell_self {len k : Nat} {v : Word} :
    ∀ {lo : Nat} {cells : List (Nat × Word)}, cellsOk len lo cells = true →
      lookupCell k (storeCell k v cells) = v
  | _, [], _ => by
    by_cases hv : v = 0#64 <;> simp [storeCell, lookupCell, hv]
  | lo, (a, u) :: rest, h => by
    simp only [cellsOk, Bool.and_eq_true, decide_eq_true_eq] at h
    unfold storeCell
    split
    · rename_i hlt
      split
      · rename_i hv
        have hne : a ≠ k := by omega
        simpa [lookupCell, hne, hv] using lookupCell_below h.2 (by omega)
      · simp [lookupCell]
    · split
      · rename_i heq
        split
        · rename_i hv
          rw [hv]
          exact lookupCell_below h.2 (by omega)
        · simp [lookupCell]
      · rename_i hne
        have hne' : a ≠ k := fun e => hne e.symm
        simpa [lookupCell, hne'] using lookupCell_storeCell_self h.2

theorem lookupCell_storeCell_other {k j : Nat} {v : Word} (hj : j ≠ k) :
    ∀ {cells : List (Nat × Word)}, lookupCell j (storeCell k v cells) = lookupCell j cells
  | [] => by
    by_cases hv : v = 0#64 <;> simp [storeCell, lookupCell, hv, hj.symm]
  | (a, u) :: rest => by
    unfold storeCell
    split
    · split <;> simp [lookupCell, hj.symm]
    · split
      · rename_i heq
        have hja : a ≠ j := by omega
        split <;> simp [lookupCell, hj.symm, hja]
      · simp [lookupCell, lookupCell_storeCell_other hj]

theorem listCells_ok {len : Nat} :
    ∀ {base : Nat} {ws : List Word}, base + ws.length ≤ len → cellsOk len base (listCells base ws) = true
  | _, [], _ => rfl
  | base, v :: rest, h => by
    simp only [List.length_cons] at h
    have ih := listCells_ok (len := len) (base := base + 1) (ws := rest) (by omega)
    unfold listCells
    split
    · exact cellsOk_mono (by omega) ih
    · rename_i hv
      simp only [cellsOk, Bool.and_eq_true, decide_eq_true_eq]
      exact ⟨⟨⟨Nat.le_refl _, by omega⟩, hv⟩, ih⟩

theorem lookupCell_listCells_below {k : Nat} :
    ∀ {base : Nat} {ws : List Word}, k < base → lookupCell k (listCells base ws) = 0#64
  | _, [], _ => rfl
  | base, v :: rest, h => by
    have ih := lookupCell_listCells_below (k := k) (base := base + 1) (ws := rest) (by omega)
    have hne : base ≠ k := by omega
    unfold listCells
    split
    · exact ih
    · simpa [lookupCell, hne] using ih

theorem lookupCell_listCells {j : Nat} :
    ∀ {base : Nat} {ws : List Word}, lookupCell (base + j) (listCells base ws) = ws.getD j 0#64
  | _, [] => by simp [listCells, lookupCell]
  | base, v :: rest => by
    cases j with
    | zero =>
      unfold listCells
      split
      · rename_i hv
        simpa [hv] using lookupCell_listCells_below (k := base) (base := base + 1) (ws := rest) (by omega)
      · simp [lookupCell]
    | succ j =>
      have ih := lookupCell_listCells (j := j) (base := base + 1) (ws := rest)
      rw [show base + 1 + j = base + (j + 1) by omega] at ih
      unfold listCells
      split <;> simp [lookupCell, ih]

@[simp] theorem Memory.store_len (m : Memory) (a : Nat) (v : Word) : (m.store a v).len = m.len := rfl

theorem Memory.contains_iff {m : Memory} {a : Int} : m.contains a = true ↔ 0 ≤ a ∧ a < m.len := by
  simp [Memory.contains]

theorem Memory.cell_store_self {m : Memory} {a : Nat} {v : Word} (h : m.wf = true) :
    (m.store a v).cell a = v := lookupCell_storeCell_self h

theorem Memory.cell_store_other {m : Memory} {a b : Nat} {v : Word} (h : b ≠ a) :
    (m.store a v).cell b = m.cell b := lookupCell_storeCell_other h

theorem Memory.store_wf {m : Memory} {a : Nat} {v : Word} (h : m.wf = true) (ha : a < m.len) :
    (m.store a v).wf = true := storeCell_ok ha h (Nat.zero_le _)

theorem Memory.construct_len_le (ceiling : Nat) (p : List Word) (pad : Bool) :
    p.length ≤ (Memory.construct ceiling p pad).len := by
  simp only [Memory.construct]
  split
  · rename_i h
    simp only [Bool.and_eq_true, decide_eq_true_eq] at h
    omega
  · exact Nat.le_refl _

theorem Memory.construct_wf (ceiling : Nat) (p : List Word) (pad : Bool) :
    (Memory.construct ceiling p pad).wf = true :=
  listCells_ok (by simpa using Memory.construct_len_le ceiling p pad)

theorem Memory.construct_cell (ceiling : Nat) (p : List Word) (pad : Bool) (a : Nat) :
    (Memory.construct ceiling p pad).cell a = p.getD a 0#64 := by
  have h := lookupCell_listCells (j := a) (base := 0) (ws := p)
  rwa [Nat.zero_add] at h

theorem State.reset_mem_wf : State.reset.mem.wf = true := rfl

theorem State.newWith_mem_wf (ceiling : Nat) (p : List Word) (pad : Bool) :
    (State.newWith ceiling p pad).mem.wf = true := Memory.construct_wf ceiling p pad

theorem cellsOk_len {len len' : Nat} (hlen : len ≤ len') :
    ∀ {lo : Nat} {cells : List (Nat × Word)}, cellsOk len lo cells = true → cellsOk len' lo cells = true
  | _, [], _ => rfl
  | _, (a, v) :: rest, h => by
    simp only [cellsOk, Bool.and_eq_true, decide_eq_true_eq] at h ⊢
    exact ⟨⟨⟨h.1.1.1, by omega⟩, h.1.2⟩, cellsOk_len hlen h.2⟩

theorem memWrite_ok {s t : State} {a : Int} {v : Word} (h : memWrite s a v = .ok t) :
    (0 ≤ a ∧ a < s.mem.len) ∧ t = s.setMem (s.mem.store a.toNat v) := by
  unfold memWrite at h
  split at h
  · rename_i hc
    exact ⟨Memory.contains_iff.mp hc, by cases h; rfl⟩
  · cases h

/-- A store keeps the canonical form. -/
theorem memWrite_wf {s t : State} {a : Int} {v : Word} (h : memWrite s a v = .ok t)
    (hs : s.mem.wf = true) : t.mem.wf = true := by
  obtain ⟨⟨h0, h1⟩, rfl⟩ := memWrite_ok h
  exact Memory.store_wf hs (by omega)

theorem Memory.storeAll_wf : ∀ {ws : List Word} {base : Nat} {m : Memory},
    base + ws.length ≤ m.len → m.wf = true → (Memory.storeAll base ws m).wf = true
  | [], _, _, _, h => h
  | w :: rest, base, m, hb, h => by
    simp only [List.length_cons] at hb
    exact Memory.storeAll_wf (m := m.store base w) (base := base + 1) (ws := rest)
      (by rw [Memory.store_len]; omega) (Memory.store_wf h (by omega))

/-- Placing cells keeps the canonical form. -/
theorem Memory.place_wf {m : Memory} {base : Nat} {ws : List Word} (h : m.wf = true) :
    (m.place base ws).wf = true :=
  Memory.storeAll_wf (Nat.le_max_right _ _) (cellsOk_len (Nat.le_max_left _ _) h)

end Sys2Proof.Machine
end

