-- ==== Sys2Proof/Laws/Operands.lean ====
section
/-! SUPPORT. What the resolver and the memory accesses answer, in the words of Safety.lean: one lemma
per operation and outcome, to be cited instead of unfolding the operation. -/

namespace Sys2Proof.Machine

theorem contains_inMemory {s : State} {a : Int} : s.mem.contains a = true ↔ InMemory s a :=
  Memory.contains_iff

theorem memRead_ok_iff {s : State} {a : Int} {v : Word} :
    memRead s a = .ok v ↔ InMemory s a ∧ v = s.mem.cell a.toNat := by
  unfold memRead raiseInvalidAddress
  split <;> rename_i h <;> rw [contains_inMemory] at h <;> simp [h, eq_comm]

theorem memRead_error_iff {s : State} {a : Int} {e : Fault} :
    memRead s a = .error e ↔ ¬ InMemory s a ∧ e = .invalidAddress s.ip a := by
  unfold memRead raiseInvalidAddress
  split <;> rename_i h <;> rw [contains_inMemory] at h <;> simp [h, eq_comm]

theorem checkAddress_ok_iff {s : State} {a p : Int} :
    checkAddress s a = .ok p ↔ InMemory s a ∧ p = a := by
  unfold checkAddress raiseInvalidAddress
  split <;> rename_i h <;> rw [contains_inMemory] at h <;> simp [h, eq_comm]

theorem checkAddress_error_iff {s : State} {a : Int} {e : Fault} :
    checkAddress s a = .error e ↔ ¬ InMemory s a ∧ e = .invalidAddress s.ip a := by
  unfold checkAddress raiseInvalidAddress
  split <;> rename_i h <;> rw [contains_inMemory] at h <;> simp [h, eq_comm]

theorem rawParam_ok_iff {s : State} {k : Nat} {r : Word} :
    rawParam k s = .ok r ↔ HoldsParam s k r := by
  unfold rawParam HoldsParam
  rw [memRead_ok_iff]
  unfold InMemory
  constructor
  · rintro ⟨⟨_, h⟩, rfl⟩
    exact ⟨by omega, rfl⟩
  · rintro ⟨h, rfl⟩
    exact ⟨⟨by omega, by omega⟩, rfl⟩

theorem rawParam_error_iff {s : State} {k : Nat} {e : Fault} :
    rawParam k s = .error e ↔ s.mem.len ≤ s.ip + k ∧ e = .invalidAddress s.ip ((s.ip + k : Nat) : Int) := by
  unfold rawParam
  rw [memRead_error_iff]
  unfold InMemory
  constructor
  · rintro ⟨h, rfl⟩
    exact ⟨by omega, rfl⟩
  · rintro ⟨h, rfl⟩
    exact ⟨by omega, rfl⟩

theorem operandAddress_eq (m : Mode) (r : Word) (s : State) :
    operandAddress m r s = namedAddress s m r := by cases m <;> rfl

theorem HoldsParam.unique {s : State} {k : Nat} {r r' : Word} (h : HoldsParam s k r)
    (h' : HoldsParam s k r') : r = r' := h.2.symm.trans h'.2

/-- `readParam` answers exactly the value the parameter resolves to. -/
theorem readParam_ok_iff {s : State} {m : Mode} {k : Nat} {v : Word} :
    readParam m k s = .ok v ↔ ReadsTo s m k v := by
  unfold readParam ReadsTo
  cases hr : rawParam k s with
  | error e =>
    have he := (rawParam_error_iff.mp hr).1
    simp only [reduceCtorEq, false_iff, not_exists, not_and]
    intro r hp
    have := hp.1
    omega
  | ok r =>
    have hp := rawParam_ok_iff.mp hr
    constructor
    · intro h
      refine ⟨r, hp, ?_⟩
      cases m
      · exact memRead_ok_iff.mp h
      · cases h; rfl
      · exact memRead_ok_iff.mp h
    · rintro ⟨r', hp', h⟩
      obtain rfl := hp.unique hp'
      cases m
      · exact memRead_ok_iff.mpr h
      · cases h; rfl
      · exact memRead_ok_iff.mpr h

/-- `readParam` raises exactly the error of the bad access. -/
theorem readParam_error_iff {s : State} {m : Mode} {k : Nat} {e : Fault} :
    readParam m k s = .error e ↔ ∃ x, BadParam s .read m k x ∧ e = .invalidAddress s.ip x := by
  unfold readParam BadParam MissingParam
  cases hr : rawParam k s with
  | error e' =>
    obtain ⟨hlen, rfl⟩ := rawParam_error_iff.mp hr
    constructor
    · intro h
      cases h
      exact ⟨_, .inl ⟨hlen, rfl⟩, rfl⟩
    · rintro ⟨x, ⟨_, rfl⟩ | ⟨r, hp, _⟩, rfl⟩
      · rfl
      · have := hp.1
        omega
  | ok r =>
    have hp := rawParam_ok_iff.mp hr
    have hlt := hp.1
    constructor
    · intro h
      cases m
      · obtain ⟨hn, rfl⟩ := memRead_error_iff.mp h
        exact ⟨_, .inr ⟨r, hp, by simp, hn, rfl⟩, rfl⟩
      · cases h
      · obtain ⟨hn, rfl⟩ := memRead_error_iff.mp h
        exact ⟨_, .inr ⟨r, hp, by simp, hn, rfl⟩, rfl⟩
    · rintro ⟨x, ⟨hle, _⟩ | ⟨r', hp', hm, hn, rfl⟩, rfl⟩
      · omega
      · obtain rfl := hp.unique hp'
        cases m
        · exact memRead_error_iff.mpr ⟨hn, rfl⟩
        · exact absurd ⟨rfl, rfl⟩ hm
        · exact memRead_error_iff.mpr ⟨hn, rfl⟩

/-- `destParam` answers exactly the address the destination resolves to. -/
theorem destParam_ok_iff {s : State} {m : Mode} {k : Nat} {p : Int} :
    destParam m k s = .ok p ↔ StoresAt s m k p.toNat ∧ 0 ≤ p := by
  unfold destParam StoresAt
  cases hr : rawParam k s with
  | error e =>
    have he := (rawParam_error_iff.mp hr).1
    simp only [reduceCtorEq, false_iff, not_and, forall_exists_index, and_imp]
    intro r hp
    have := hp.1
    omega
  | ok r =>
    have hp := rawParam_ok_iff.mp hr
    simp only [checkAddress_ok_iff, operandAddress_eq]
    constructor
    · rintro ⟨hin, rfl⟩
      have h0 := hin.1
      exact ⟨⟨r, hp, hin, by omega⟩, h0⟩
    · rintro ⟨⟨r', hp', hin, h⟩, h0⟩
      obtain rfl := hp.unique hp'
      exact ⟨hin, by omega⟩

theorem destParam_of_storesAt {s : State} {m : Mode} {k p : Nat} (h : StoresAt s m k p) :
    destParam m k s = .ok (p : Int) := destParam_ok_iff.mpr ⟨by simpa using h, by omega⟩

/-- `destParam` raises exactly the error of the bad access. -/
theorem destParam_error_iff {s : State} {m : Mode} {k : Nat} {e : Fault} :
    destParam m k s = .error e ↔ ∃ x, BadParam s .destination m k x ∧ e = .invalidAddress s.ip x := by
  unfold destParam BadParam MissingParam
  cases hr : rawParam k s with
  | error e' =>
    obtain ⟨hlen, rfl⟩ := rawParam_error_iff.mp hr
    constructor
    · intro h
      cases h
      exact ⟨_, .inl ⟨hlen, rfl⟩, rfl⟩
    · rintro ⟨x, ⟨_, rfl⟩ | ⟨r, hp, _⟩, rfl⟩
      · rfl
      · have := hp.1
        omega
  | ok r =>
    have hp := rawParam_ok_iff.mp hr
    have hlt := hp.1
    simp only [checkAddress_error_iff, operandAddress_eq]
    constructor
    · rintro ⟨hn, rfl⟩
      exact ⟨_, .inr ⟨r, hp, by simp, hn, rfl⟩, rfl⟩
    · rintro ⟨x, ⟨hle, _⟩ | ⟨r', hp', _, hn, rfl⟩, rfl⟩
      · omega
      · obtain rfl := hp.unique hp'
        exact ⟨hn, rfl⟩

theorem StoresAt.inMemory {s : State} {m : Mode} {k p : Nat} (h : StoresAt s m k p) : p < s.mem.len := by
  obtain ⟨r, _, hin, he⟩ := h
  have := hin.2
  omega

theorem memWrite_of_lt {s : State} {p : Nat} {v : Word} (h : p < s.mem.len) :
    memWrite s p v = .ok (s.setMem (s.mem.store p v)) := by
  unfold memWrite
  rw [if_pos (Memory.contains_iff.mpr ⟨by omega, by omega⟩)]
  rfl

end Sys2Proof.Machine
end

