-- ==== Sys2Proof/Laws/Exec.lean ====
section
/-! SUPPORT. What the shared operations of the instructions can do, said once: each answers a next
state of one form, or the error of its first bad parameter. -/

namespace Sys2Proof.Machine

theorem finish_next_iff {x : Except Fault State} {t : State} : finish x = .next t ↔ x = .ok t := by
  cases x <;> simp [finish]

theorem finish_fault_iff {x : Except Fault State} {e : Fault} : finish x = .fault e ↔ x = .error e := by
  cases x <;> simp [finish]

theorem finish_not_refused {x : Except Fault State} {r : Refusal} : finish x ≠ .refused r := by
  cases x <;> simp [finish]

/-- If a four-cell instruction answers, it wrote its result at its destination and advanced. -/
theorem writeResult_ok {f : Word → Word → Word} {o : Operation} {a b d : Mode} {s t : State}
    (h : writeResult f o a b d s = .ok t) :
    ∃ x y p, ReadsTo s a 1 x ∧ ReadsTo s b 2 y ∧ StoresAt s d 3 p ∧
      t = advance o (s.setMem (s.mem.store p (f x y))) := by
  unfold writeResult at h
  split at h
  · cases h
  · rename_i x hx
    split at h
    · cases h
    · rename_i y hy
      split at h
      · cases h
      · rename_i p hp
        split at h
        · cases h
        · rename_i u hu
          obtain ⟨_, rfl⟩ := memWrite_ok hu
          cases h
          exact ⟨x, y, p.toNat, readParam_ok_iff.mp hx, readParam_ok_iff.mp hy,
            (destParam_ok_iff.mp hp).1, rfl⟩

/-- A four-cell instruction whose parameters resolve answers. -/
theorem writeResult_completes {f : Word → Word → Word} {o : Operation} {a b d : Mode} {s : State}
    {x y : Word} {p : Nat} (hx : ReadsTo s a 1 x) (hy : ReadsTo s b 2 y) (hp : StoresAt s d 3 p) :
    writeResult f o a b d s = .ok (advance o (s.setMem (s.mem.store p (f x y)))) := by
  simp only [writeResult, readParam_ok_iff.mpr hx, readParam_ok_iff.mpr hy,
    destParam_of_storesAt hp, memWrite_of_lt hp.inMemory]

/-- A four-cell instruction raises exactly the error of its first bad parameter. -/
theorem writeResult_error_iff {f : Word → Word → Word} {o : Operation} {a b d : Mode} {s : State}
    {e : Fault} : writeResult f o a b d s = .error e ↔
      ∃ x, FirstBad s 1 [(.read, a), (.read, b), (.destination, d)] x ∧ e = .invalidAddress s.ip x := by
  simp only [FirstBad, GoodParam, and_false, or_false]
  unfold writeResult
  cases hx : readParam a 1 s with
  | error e' =>
    obtain ⟨x, hb, rfl⟩ := readParam_error_iff.mp hx
    have hng : ∀ v, ¬ ReadsTo s a 1 v := fun v hv => by
      rw [readParam_ok_iff.mpr hv] at hx; cases hx
    constructor
    · intro h; cases h; exact ⟨x, .inl hb, rfl⟩
    · rintro ⟨y, hy | ⟨⟨v, hv⟩, _⟩, rfl⟩
      · have := readParam_error_iff.mpr ⟨y, hy, rfl⟩
        rw [hx] at this; cases this; rfl
      · exact absurd hv (hng v)
  | ok x =>
    have hg := readParam_ok_iff.mp hx
    have hnb : ∀ y, ¬ BadParam s .read a 1 y := fun y hy => by
      rw [readParam_error_iff.mpr ⟨y, hy, rfl⟩] at hx; cases hx
    simp only [hnb, false_or]
    cases hy : readParam b 2 s with
    | error e' =>
      obtain ⟨z, hb, rfl⟩ := readParam_error_iff.mp hy
      have hng : ∀ v, ¬ ReadsTo s b 2 v := fun v hv => by
        rw [readParam_ok_iff.mpr hv] at hy; cases hy
      constructor
      · intro h; cases h; exact ⟨z, ⟨⟨x, hg⟩, .inl hb⟩, rfl⟩
      · rintro ⟨z', ⟨_, hz | ⟨⟨v, hv⟩, _⟩⟩, rfl⟩
        · have := readParam_error_iff.mpr ⟨z', hz, rfl⟩
          rw [hy] at this; cases this; rfl
        · exact absurd hv (hng v)
    | ok y =>
      have hg2 := readParam_ok_iff.mp hy
      have hnb2 : ∀ z, ¬ BadParam s .read b 2 z := fun z hz => by
        rw [readParam_error_iff.mpr ⟨z, hz, rfl⟩] at hy; cases hy
      simp only [hnb2, false_or]
      cases hp : destParam d 3 s with
      | error e' =>
        obtain ⟨z, hb, rfl⟩ := destParam_error_iff.mp hp
        constructor
        · intro h; cases h; exact ⟨z, ⟨⟨x, hg⟩, ⟨y, hg2⟩, hb⟩, rfl⟩
        · rintro ⟨z', ⟨_, _, hz⟩, rfl⟩
          have := destParam_error_iff.mpr ⟨z', hz, rfl⟩
          rw [hp] at this; cases this; rfl
      | ok p =>
        obtain ⟨hst, h0⟩ := destParam_ok_iff.mp hp
        have hin := hst.inMemory
        have hw : memWrite s p (f x y) = .ok (s.setMem (s.mem.store p.toNat (f x y))) := by
          unfold memWrite
          rw [if_pos (Memory.contains_iff.mpr ⟨h0, by omega⟩)]
        simp only [hw, reduceCtorEq, false_iff, not_exists, not_and]
        rintro z ⟨_, _, hz⟩
        rw [destParam_error_iff.mpr ⟨z, hz, rfl⟩] at hp
        cases hp

/-- If a jump answers, both parameters resolved, and it went to a target that is not negative, or
fell through. -/
theorem jumpWhen_ok {taken : Word → Bool} {o : Operation} {c g : Mode} {s t : State}
    (h : jumpWhen taken o c g s = .ok t) :
    ∃ x y, ReadsTo s c 1 x ∧ ReadsTo s g 2 y ∧
      ((taken x = true ∧ 0 ≤ y.toInt ∧ t = s.setIp y.toInt.toNat) ∨ (taken x = false ∧ t = advance o s)) := by
  unfold jumpWhen at h
  split at h
  · cases h
  · rename_i x hx
    split at h
    · cases h
    · rename_i y hy
      refine ⟨x, y, readParam_ok_iff.mp hx, readParam_ok_iff.mp hy, ?_⟩
      split at h
      · rename_i ht
        split at h
        · cases h
        · cases h
          exact .inl ⟨ht, by omega, rfl⟩
      · rename_i ht
        cases h
        exact .inr ⟨by simpa using ht, rfl⟩

/-- What a jump does once both parameters resolve. -/
theorem jumpWhen_of_reads {taken : Word → Bool} {o : Operation} {c g : Mode} {s : State} {x y : Word}
    (hx : ReadsTo s c 1 x) (hy : ReadsTo s g 2 y) :
    jumpWhen taken o c g s =
      if taken x then (if y.toInt < 0 then raiseInvalidAddress s y.toInt else .ok (s.setIp y.toInt.toNat))
      else .ok (advance o s) := by
  simp only [jumpWhen, readParam_ok_iff.mpr hx, readParam_ok_iff.mpr hy]

/-- If IN takes a value, it stored it at its destination and advanced. -/
theorem takeInput_ok {d : Mode} {v : Word} {rest : List Word} {s t : State}
    (h : takeInput d v rest s = .ok t) :
    ∃ p, StoresAt s d 1 p ∧ t = advance .inp ((s.setInq rest).setMem (s.mem.store p v)) := by
  unfold takeInput at h
  split at h
  · cases h
  · rename_i p hp
    split at h
    · cases h
    · rename_i u hu
      obtain ⟨_, rfl⟩ := memWrite_ok hu
      cases h
      exact ⟨p.toNat, (destParam_ok_iff.mp hp).1, rfl⟩

theorem takeInput_completes {d : Mode} {v : Word} {rest : List Word} {s : State} {p : Nat}
    (hp : StoresAt s d 1 p) :
    takeInput d v rest s = .ok (advance .inp ((s.setInq rest).setMem (s.mem.store p v))) := by
  have hw : memWrite (s.setInq rest) p v = .ok ((s.setInq rest).setMem (s.mem.store p v)) :=
    memWrite_of_lt hp.inMemory
  simp only [takeInput, destParam_of_storesAt hp, hw]

/-- If OUT answers, it appended its operand and advanced. -/
theorem giveOutput_ok {a : Mode} {s t : State} (h : giveOutput a s = .ok t) :
    ∃ v, ReadsTo s a 1 v ∧ t = advance .out (s.pushOutput v) := by
  unfold giveOutput at h
  split at h
  · cases h
  · rename_i v hv
    cases h
    exact ⟨v, readParam_ok_iff.mp hv, rfl⟩

theorem giveOutput_completes {a : Mode} {s : State} {v : Word} (h : ReadsTo s a 1 v) :
    giveOutput a s = .ok (advance .out (s.pushOutput v)) := by
  simp only [giveOutput, readParam_ok_iff.mpr h]

/-- If ARB answers, it added its operand to the base and advanced. -/
theorem adjustBase_ok {a : Mode} {s t : State} (h : adjustBase a s = .ok t) :
    ∃ v, ReadsTo s a 1 v ∧ t = advance .arb (s.setRb (wrap64 (s.rb.toInt + v.toInt))) := by
  unfold adjustBase at h
  split at h
  · cases h
  · rename_i v hv
    cases h
    exact ⟨v, readParam_ok_iff.mp hv, rfl⟩

theorem adjustBase_completes {a : Mode} {s : State} {v : Word} (h : ReadsTo s a 1 v) :
    adjustBase a s = .ok (advance .arb (s.setRb (wrap64 (s.rb.toInt + v.toInt)))) := by
  simp only [adjustBase, readParam_ok_iff.mpr h]

theorem execInp_of_empty {d : Mode} {s : State} (h : s.inq = []) :
    execInp d s = .next (s.setState .awaitingInput) := by
  unfold execInp
  rw [h]

theorem execInp_of_queued {d : Mode} {s : State} {v : Word} {rest : List Word} (h : s.inq = v :: rest) :
    execInp d s = finish (takeInput d v rest s) := by
  unfold execInp
  rw [h]

/-- If an instruction answers a next state, that state is the one its rules give. -/
theorem exec_next {i : Instr} {s t : State} (h : exec i s = .next t) :
    match i with
    | .add a b d => ∃ x y p, ReadsTo s a 1 x ∧ ReadsTo s b 2 y ∧ StoresAt s d 3 p ∧
        t = advance .add (s.setMem (s.mem.store p (sum64 x y)))
    | .mul a b d => ∃ x y p, ReadsTo s a 1 x ∧ ReadsTo s b 2 y ∧ StoresAt s d 3 p ∧
        t = advance .mul (s.setMem (s.mem.store p (product64 x y)))
    | .lt a b d => ∃ x y p, ReadsTo s a 1 x ∧ ReadsTo s b 2 y ∧ StoresAt s d 3 p ∧
        t = advance .lt (s.setMem (s.mem.store p (lessBit x y)))
    | .eq a b d => ∃ x y p, ReadsTo s a 1 x ∧ ReadsTo s b 2 y ∧ StoresAt s d 3 p ∧
        t = advance .eq (s.setMem (s.mem.store p (equalBit x y)))
    | .inp d => (s.inq = [] ∧ t = s.setState .awaitingInput) ∨
        ∃ v rest p, s.inq = v :: rest ∧ StoresAt s d 1 p ∧
          t = advance .inp ((s.setInq rest).setMem (s.mem.store p v))
    | .out a => ∃ v, ReadsTo s a 1 v ∧ t = advance .out (s.pushOutput v)
    | .arb a => ∃ v, ReadsTo s a 1 v ∧
        t = advance .arb (s.setRb (wrap64 (s.rb.toInt + v.toInt)))
    | .jt c g => ∃ x y, ReadsTo s c 1 x ∧ ReadsTo s g 2 y ∧
        ((isNonzero x = true ∧ 0 ≤ y.toInt ∧ t = s.setIp y.toInt.toNat) ∨
          (isNonzero x = false ∧ t = advance .jt s))
    | .jf c g => ∃ x y, ReadsTo s c 1 x ∧ ReadsTo s g 2 y ∧
        ((isZero x = true ∧ 0 ≤ y.toInt ∧ t = s.setIp y.toInt.toNat) ∨
          (isZero x = false ∧ t = advance .jf s))
    | .halt => t = s.setState .halted := by
  cases i with
  | add a b d => exact writeResult_ok (finish_next_iff.mp h)
  | mul a b d => exact writeResult_ok (finish_next_iff.mp h)
  | lt a b d => exact writeResult_ok (finish_next_iff.mp h)
  | eq a b d => exact writeResult_ok (finish_next_iff.mp h)
  | inp d =>
    have h' : execInp d s = .next t := h
    cases hq : s.inq with
    | nil =>
      rw [execInp_of_empty hq] at h'
      cases h'
      exact .inl ⟨rfl, rfl⟩
    | cons v rest =>
      rw [execInp_of_queued hq] at h'
      obtain ⟨p, hp, ht⟩ := takeInput_ok (finish_next_iff.mp h')
      exact .inr ⟨v, rest, p, rfl, hp, ht⟩
  | out a => exact giveOutput_ok (finish_next_iff.mp h)
  | arb a => exact adjustBase_ok (finish_next_iff.mp h)
  | jt c g => exact jumpWhen_ok (finish_next_iff.mp h)
  | jf c g => exact jumpWhen_ok (finish_next_iff.mp h)
  | halt =>
    cases h
    rfl

/-- What a step that answers did: nothing, or one decoded instruction. -/
theorem stepWith_next {c : Config} {s t : State} (h : stepWith c s = .next t) :
    (activity s = .idle ∧ t = s) ∨
      ∃ u i, activity s = .execute u ∧ fetch c u = .ok i ∧ exec i u = .next t := by
  unfold stepWith at h
  split at h
  · cases h
  · rename_i ha
    cases h
    exact .inl ⟨ha, rfl⟩
  · rename_i u ha
    split at h
    · cases h
    · rename_i i hi
      exact .inr ⟨u, i, ha, hi, h⟩

/-- What a step request comes to. -/
theorem activity_execute {s u : State} (h : activity s = .execute u) :
    s.fault = none ∧ u = s.setState .running ∧ s.state ≠ .halted ∧ (s.state = .awaitingInput → s.inq ≠ []) := by
  unfold activity at h
  split at h
  · cases h
  · rename_i hf
    split at h
    · cases h
    · rename_i hs
      cases h
      exact ⟨hf, rfl, by simp [hs], by simp [hs]⟩
    · rename_i hs
      split at h
      · cases h
      · rename_i hq
        cases h
        exact ⟨hf, rfl, by simp [hs], by simp [hq]⟩
    · rename_i hs
      cases h
      refine ⟨hf, ?_, by simp [hs], by simp [hs]⟩
      cases s
      cases hs
      rfl

theorem activity_idle {s : State} (h : activity s = .idle) :
    s.fault = none ∧ (s.state = .halted ∨ (s.state = .awaitingInput ∧ s.inq = [])) := by
  unfold activity at h
  split at h
  · cases h
  · rename_i hf
    split at h
    · rename_i hs
      exact ⟨hf, .inl hs⟩
    · cases h
    · rename_i hs
      split at h
      · rename_i hq
        exact ⟨hf, .inr ⟨hs, hq⟩⟩
      · cases h
    · cases h

/-- A step request that executes. -/
theorem activity_of_awake {s : State} (hf : s.fault = none)
    (h : s.state = .notStarted ∨ s.state = .running ∨ (s.state = .awaitingInput ∧ s.inq ≠ [])) :
    activity s = .execute (s.setState .running) := by
  unfold activity
  rw [hf]
  rcases h with h | h | ⟨h, hq⟩
  · simp [h]
  · simp only [h]
    cases s
    cases h
    rfl
  · simp only [h]
    cases hq' : s.inq with
    | nil => exact absurd hq' hq
    | cons v rest => rfl

/-- The fetch at an `ip` inside memory. -/
theorem fetch_of_lt {c : Config} {s : State} (h : s.ip < s.mem.len) :
    fetch c s = match decodeWord c (s.mem.cell s.ip) with
      | .ok i => .ok i
      | .error _ => .error (.unsupportedOpcode s.ip (s.mem.cell s.ip) (fields (s.mem.cell s.ip)).op) := by
  unfold fetch memRead raiseUnsupportedOpcode
  rw [if_pos (Memory.contains_iff.mpr ⟨by omega, by omega⟩)]
  simp only [Int.toNat_natCast]
  cases decodeWord c (s.mem.cell s.ip) <;> rfl

/-- The fetch at an `ip` outside memory. -/
theorem fetch_of_le {c : Config} {s : State} (h : s.mem.len ≤ s.ip) :
    fetch c s = .error (.invalidAddress s.ip s.ip) := by
  unfold fetch memRead raiseInvalidAddress
  rw [if_neg]
  rw [Memory.contains_iff]
  omega

/-- The fetch reads memory and `ip`, and nothing else. -/
theorem fetch_congr {c : Config} {s u : State} (hm : u.mem = s.mem) (hi : u.ip = s.ip) :
    fetch c u = fetch c s := by
  unfold fetch memRead raiseInvalidAddress raiseUnsupportedOpcode
  rw [hm, hi]

end Sys2Proof.Machine
end

