-- ==== Sys2Proof/Laws/Driver.lean ====
section
/-! SUPPORT. What the host transactions can do, said once each. -/

namespace Sys2Proof.Machine

theorem enqueueInput_ok {v : Word} {s t : State} (h : Driver.enqueueInput v s = .ok t) :
    s.fault = none ∧ ((s.state = .halted ∧ t = s) ∨ (s.state ≠ .halted ∧ t = s.pushInput v)) := by
  unfold Driver.enqueueInput at h
  split at h
  · cases h
  · rename_i hf
    refine ⟨hf, ?_⟩
    split at h <;> rename_i hs <;> cases h <;> simp [hs]

theorem dequeueOutput_ok {o : Option Word} {s t : State} (h : Driver.dequeueOutput s = .ok (o, t)) :
    s.fault = none ∧ ((s.outq = [] ∧ o = none ∧ t = s) ∨
      ∃ v rest, s.outq = v :: rest ∧ o = some v ∧ t = s.setOutq rest) := by
  unfold Driver.dequeueOutput at h
  split at h
  · cases h
  · rename_i hf
    refine ⟨hf, ?_⟩
    split at h <;> rename_i hs <;> cases h <;> simp [hs]

theorem stops_iff {x : ExecState} : Driver.stops x = true ↔ x = .halted ∨ x = .awaitingInput := by
  simp [Driver.stops]

theorem run_succ (n : Nat) (s : State) :
    Driver.run (n + 1) s = match step s with
      | .next t => if Driver.stops t.state then .returned .ok t else Driver.run n t
      | .fault e => .returned (.err e) (s.latch e)
      | .refused r => .refused r := rfl

theorem stepTimes_succ (n : Nat) (s : State) :
    stepTimes (n + 1) s = match step s with
      | .next t => stepTimes n t
      | .fault _ => none
      | .refused _ => none := rfl

/-- A run that is not over has latched no fault. -/
theorem run_unfinished_fault {n : Nat} {s u : State} (h : Driver.run n s = .unfinished u) :
    u.fault = none := by
  induction n generalizing s with
  | zero =>
    unfold Driver.run Driver.runWith at h
    cases hf : s.fault <;> simp [hf] at h
    rw [← h]; exact hf
  | succ n ih =>
    rw [run_succ] at h
    split at h
    · split at h
      · cases h
      · exact ih h
    · cases h
    · cases h

/-- A run sent to a CORE on which none is in progress is watched from its state. -/
theorem Fleet.apply_run {fleet : List Fleet.Member} {k n : Nat} {s : State}
    (h : fleet[k]? = some (Fleet.idle s)) :
    Fleet.apply (.send k (.run n)) fleet = ((Fleet.watched s (Driver.run n s)).1,
      fleet.set k (Fleet.watched s (Driver.run n s)).2) := by
  simp [Fleet.apply, h, Fleet.idle, Fleet.perform, Fleet.added]

/-- A run in progress goes on from the state it has reached. -/
theorem Fleet.apply_goOn {fleet : List Fleet.Member} {k n : Nat} {s : State}
    (h : fleet[k]? = some { core := s, inRun := true }) :
    Fleet.apply (.goOn k n) fleet = ((Fleet.watched s (Driver.run n s)).1,
      fleet.set k (Fleet.watched s (Driver.run n s)).2) := by
  simp [Fleet.apply, h]

end Sys2Proof.Machine
end

