-- ==== Sys2Proof/Laws/PerInstr.lean ====
section
/-! SUPPORT. Per instruction: the decimal fields of its opcode word, for every constructor. -/

namespace Sys2Proof.Laws.EncodeFields

/-- The opcode word of the instruction has the instruction's OP value, its mode digits in the places
of its parameters, and 0 in every place above (30_encoding.md R62, R77). -/
def Statement (i : Instr) : Prop :=
  fields (encodeWord i) =
    { op := i.operation.code
      m1 := ((i.modes[0]?.map Mode.digit).getD 0 : Nat)
      m2 := ((i.modes[1]?.map Mode.digit).getD 0 : Nat)
      m3 := ((i.modes[2]?.map Mode.digit).getD 0 : Nat)
      hi := 0 }

theorem add (a b d : Mode) : Statement (.add a b d) := by cases a <;> cases b <;> cases d <;> rfl
theorem mul (a b d : Mode) : Statement (.mul a b d) := by cases a <;> cases b <;> cases d <;> rfl
theorem inp (d : Mode) : Statement (.inp d) := by cases d <;> rfl
theorem out (a : Mode) : Statement (.out a) := by cases a <;> rfl
theorem jt (c t : Mode) : Statement (.jt c t) := by cases c <;> cases t <;> rfl
theorem jf (c t : Mode) : Statement (.jf c t) := by cases c <;> cases t <;> rfl
theorem lt (a b d : Mode) : Statement (.lt a b d) := by cases a <;> cases b <;> cases d <;> rfl
theorem eq (a b d : Mode) : Statement (.eq a b d) := by cases a <;> cases b <;> cases d <;> rfl
theorem arb (a : Mode) : Statement (.arb a) := by cases a <;> rfl
theorem halt : Statement .halt := rfl

end Sys2Proof.Laws.EncodeFields
end

