-- ==== Sys2Proof/Tests/Slice0.lean ====
section
/-! SUPPORT. The model's own tests: the well-formedness smoke, words written out from the spec's
encodings, at most two single steps for each instruction with results from 95_test_vectors.md, and
for every statement with hypotheses a witness that meets them. -/

namespace Sys2Proof.Tests

open Sys2Proof.Machine

/-! ### Helpers -/

/-- A program of integers. -/
def prog (vs : List Int) : List Word := vs.map wrap64

/-- A CORE built from a program without padding, before its first step. -/
def built (vs : List Int) : State := State.newWith 0 (prog vs) false

/-- The same, running. -/
def running (vs : List Int) : State := (built vs).setState .running

/-- What a step's next state holds, none where the step does not answer one. -/
def after {α : Type} (o : StepOutcome) (f : State → α) : Option α :=
  match o with
  | .next t => some (f t)
  | .fault _ => none
  | .refused _ => none

/-- The fault a step ends in. -/
def faultOf (o : StepOutcome) : Option Fault :=
  match o with
  | .next _ => none
  | .fault e => some e
  | .refused _ => none

/-- The parameters with both switches at their other value. -/
def otherConfig : Config := { memCeiling := 0, immWrite := .asPosition, highDigits := .fault }

/-! ### Well-formedness (30_encoding.md R73) -/

theorem test_wellFormed_refuses_add_to_immediate :
    (Instr.add .position .position .immediate).wellFormedUnder .fault = false := by decide
theorem test_wellFormed_refuses_in_to_immediate :
    (Instr.inp .immediate).wellFormedUnder .fault = false := by decide
theorem test_wellFormed_admits_immediate_as_position :
    (Instr.inp .immediate).wellFormedUnder .asPosition = true := by decide
theorem test_wellFormed_admits_immediate_reads :
    (Instr.lt .immediate .immediate .relative).wellFormedUnder .fault = true := by decide

/-! ### Decoding: one word for every constructor, from 30_encoding.md R62 and R66, and the illegal
words of 95_test_vectors.md DEC1 to DEC11 -/

theorem test_decode_add (c : Config) : decodeWord c 21101#64 = .ok (.add .immediate .immediate .relative) := rfl
theorem test_decode_mul (c : Config) : decodeWord c 1002#64 = .ok (.mul .position .immediate .position) := rfl
theorem test_decode_in (c : Config) : decodeWord c 203#64 = .ok (.inp .relative) := rfl
theorem test_decode_out (c : Config) : decodeWord c 31204#64 = .ok (.out .relative) := rfl
theorem test_decode_jt (c : Config) : decodeWord c 1105#64 = .ok (.jt .immediate .immediate) := rfl
theorem test_decode_jf (c : Config) : decodeWord c 1006#64 = .ok (.jf .position .immediate) := rfl
theorem test_decode_lt (c : Config) : decodeWord c 22107#64 = .ok (.lt .immediate .relative .relative) := rfl
theorem test_decode_eq (c : Config) : decodeWord c 1008#64 = .ok (.eq .position .immediate .position) := rfl
theorem test_decode_arb (c : Config) : decodeWord c 109#64 = .ok (.arb .immediate) := rfl
theorem test_decode_halt (c : Config) : decodeWord c 20099#64 = .ok .halt := rfl
theorem test_decode_zero (c : Config) : decodeWord c 0#64 = .error .unsupportedOperation := rfl
theorem test_decode_minus_99 (c : Config) : decodeWord c (wrap64 (-99)) = .error .unsupportedOperation := rfl
theorem test_decode_mode_3 (c : Config) : decodeWord c 301#64 = .error (.illegalMode 1) := rfl
theorem test_decode_in_immediate :
    decodeWord (Config.defaults 0) 103#64 = .error (.illegalMode 1) := rfl
theorem test_decode_in_immediate_asPosition : decodeWord otherConfig 103#64 = .ok (.inp .immediate) := rfl
theorem test_decode_high_ignored : decodeWord (Config.defaults 0) 100099#64 = .ok .halt := rfl
theorem test_decode_high_fault : decodeWord otherConfig 100099#64 = .error .highDigits := rfl
theorem test_fields_31204 : fields 31204#64 = { op := 4, m1 := 2, m2 := 1, m3 := 3, hi := 0 } := rfl
theorem test_encode_mul : encode (.mul .position .immediate .position) (prog [4, 3, 4]) = prog [1002, 4, 3, 4] := rfl
theorem test_decodeTableWord_add : decodeTableWord 256 1 = some (.add .position .position .position) := rfl
theorem test_decodeTableWord_above_nbits : decodeTableWord 8 0x0163 = some .halt := rfl

/-! ### Steps: 95_test_vectors.md, one step each -/

/-- ADD1: the sum wraps. -/
theorem test_add_wraps :
    after (step (built [1101, 9223372036854775807, 1, 5, 99, 0])) (fun t => (t.mem.cell 5, t.ip)) =
      some (wrap64 (-9223372036854775808), 4) := by decide
/-- ADD8: an Immediate destination under IMM_WRITE = AsPosition. -/
theorem test_add_immediate_destination :
    after (stepWith { otherConfig with highDigits := .ignore } (built [11101, 1, 1, 5, 99, 0]))
      (fun t => t.mem.cell 5) = some 2#64 := by decide
/-- MUL2. -/
theorem test_mul_wraps :
    after (step (built [1102, -9223372036854775808, -1, 5, 99, 0])) (fun t => t.mem.cell 5) =
      some (wrap64 (-9223372036854775808)) := by decide
/-- MUL1: a result of 0 leaves no entry in the listing. -/
theorem test_mul_to_zero :
    after (step (built [1102, 4294967296, 4294967296, 5, 99, 7])) (fun t => (t.mem.cell 5, t.mem.wf)) =
      some (0#64, true) := by decide
/-- IN1, run 1. -/
theorem test_in_suspends :
    after (step (built [3, 0, 99])) (fun t => (t.state, t.ip, t.mem.cell 0)) =
      some (.awaitingInput, 0, 3#64) := by decide
/-- IN2's IN: a Relative destination 1 + 2. -/
theorem test_in_relative :
    after (step ((running [203, 2, 99, 0]).setRb 1#64 |>.setInq [9#64, 8#64]))
      (fun t => (t.mem.cell 3, t.inq, t.ip)) = some (9#64, [8#64], 2) := by decide
/-- OUT3. -/
theorem test_out_immediate :
    after (step (built [104, -7, 99])) (fun t => (t.outq, t.ip, t.state)) =
      some ([wrap64 (-7)], 2, .running) := by decide
/-- ARB5's OUT: the unbounded sum −2^64 + 5 faults. -/
theorem test_out_relative_unbounded :
    faultOf (step ((running [204, -9223372036854775803, 99, 0, 0, 1]).setRb (wrap64 (-9223372036854775808)))) =
      some (.invalidAddress 0 (-18446744073709551611)) := by decide
/-- JMP2: a negative condition is true. -/
theorem test_jt_taken :
    after (step (built [1105, -1, 7, 104, 0, 99, 0, 104, 1, 99])) (fun t => t.ip) = some 7 := by decide
/-- JMP5: a negative taken target. -/
theorem test_jt_negative_target :
    faultOf (step (built [1105, 1, -1])) = some (.invalidAddress 0 (-1)) := by decide
/-- JMP8: a negative target is harmless when the jump is not taken. -/
theorem test_jf_not_taken : after (step (built [1106, 1, -1, 99])) (fun t => t.ip) = some 3 := by decide
/-- JMP3. -/
theorem test_jf_taken : after (step (built [1106, 0, 7, 99])) (fun t => t.ip) = some 7 := by decide
/-- CMP1: signed. -/
theorem test_lt_signed :
    after (step (built [1107, -1, 0, 5, 99, 7])) (fun t => t.mem.cell 5) = some 1#64 := by decide
/-- CMP2. -/
theorem test_lt_equal :
    after (step (built [1107, 5, 5, 5, 99, 7])) (fun t => t.mem.cell 5) = some 0#64 := by decide
/-- CMP4. -/
theorem test_eq_holds :
    after (step (built [1108, 7, 7, 5, 99, 3])) (fun t => t.mem.cell 5) = some 1#64 := by decide
/-- CMP5. -/
theorem test_eq_fails :
    after (step (built [1108, -1, 1, 5, 99, 3])) (fun t => t.mem.cell 5) = some 0#64 := by decide
/-- ARB2's second ARB: the base wraps. -/
theorem test_arb_wraps :
    after (step ((running [109, 1, 99]).setRb (wrap64 9223372036854775807))) (fun t => (t.rb, t.ip)) =
      some (wrap64 (-9223372036854775808), 2) := by decide
/-- ARB3: a Relative operand. -/
theorem test_arb_relative :
    after (step (built [209, 3, 99, 10])) (fun t => t.rb) = some 10#64 := by decide
/-- HLT1. -/
theorem test_halt : after (step (built [99])) (fun t => (t.state, t.ip)) = some (.halted, 0) := by decide
/-- ADD9, JMP7, IN4 (defaults), DEC3: faults at a missing word, at a read of an untaken jump, at a mode. -/
theorem test_add_missing_parameter :
    faultOf (step (built [1, 0, 0])) = some (.invalidAddress 0 3) := by decide
theorem test_jt_untaken_reads_target :
    faultOf (step (built [105, 0, 50, 99])) = some (.invalidAddress 0 50) := by decide
theorem test_in_immediate_faults_with_empty_queue :
    faultOf (stepWith (Config.defaults 0) (built [103, 0, 99])) = some (.unsupportedOpcode 0 103#64 3) := by decide
theorem test_negative_word :
    faultOf (step (built [-101])) = some (.unsupportedOpcode 0 (wrap64 (-101)) (-1)) := by decide

/-! ### Construction, host operations, assembly -/

/-- CON3 and CON4. -/
theorem test_construct_pads :
    (Memory.construct 3 (prog [99]) true).len = 3 ∧ (Memory.construct 3 (prog [1, 0, 0, 0, 99]) true).len = 5 := by
  decide
/-- HOST2: input queued before the first run. -/
theorem test_enqueue_before_first_run :
    Driver.enqueueInput 4#64 (built [3, 0, 99]) = .ok ((built [3, 0, 99]).setInq [4#64]) := rfl
/-- P5's hand-off. -/
theorem test_handOff :
    Driver.handOff ((running [99]).setOutq [10#64, 11#64]) (running [3, 0]) =
      .ok (running [99], (running [3, 0]).setInq [10#64, 11#64]) := rfl
/-- The assembly of `MUL [4], #3, [4]`, its destination a label's address, of `OUT [rb-1]`, and of
`OUT [rb-p]` with `p` at address 6 (30_encoding.md R77). -/
theorem test_assemble :
    Assembly.assemble
        [{ label := some "m", item := .insn (.mul (.position (.literal 4)) (.immediate (.literal 3)) (.position (.label "m"))) },
         { label := none, item := .insn (.out (.relative (.minus (.literal 1)))) },
         { label := some "p", item := .insn (.out (.relative (.minus (.label "p")))) }] =
      .ok (prog [1002, 4, 3, 0, 204, -1, 204, -6]) := rfl
/-- R78's `raw` comment. -/
theorem test_disassemble_raw :
    Assembly.disassembleOne (Config.defaults 0) 199#64 [] = ({ item := .insn .halt, raw := some 199#64 }, 1) := rfl
theorem test_show :
    Assembly.showInsn (.add (.position (.label "a")) (.immediate (.label "b")) (.relative (.minus (.label "c")))) =
      "ADD [a], #b, [rb-c]" := by decide

/-! ### What the host asks of `withFetchWord` -/

theorem test_withFetchWord_add :
    after (step (State.reset.withFetchWord 256 1)) (fun t => (t.ip, t.mem.cell 0, t.state)) =
      some (4, 2#64, .running) := by decide
theorem test_withFetchWord_halt :
    after (step (State.reset.withFetchWord 8 99)) (fun t => t.state) = some .halted := by decide

/-! ### Witnesses: each statement's hypotheses are met -/

/-- `ADD [5], #3, [rb+2]` with rb = 3: reads 7 and 3, stores at 5. -/
def demo : State := (running [21001, 5, 3, 2, 99, 7]).setRb 3#64

theorem demo_executing : Executing demo := ⟨rfl, rfl⟩
theorem demo_reads_position : ReadsTo demo .position 1 7#64 :=
  ⟨5#64, ⟨by decide, by decide⟩, ⟨by decide, by decide⟩, by decide⟩
theorem demo_reads_immediate : ReadsTo demo .immediate 2 3#64 := ⟨3#64, ⟨by decide, by decide⟩, rfl⟩
theorem demo_stores_relative : StoresAt demo .relative 3 5 :=
  ⟨2#64, ⟨by decide, by decide⟩, ⟨by decide, by decide⟩, by decide⟩

/-- NewCoreIsInTheResetState: a program cell and the first padding cell. -/
theorem witness_new_core :
    (prog [7])[0]? = some 7#64 ∧ (prog [7]).length ≤ 1 ∧ 1 < (State.newWith 2 (prog [7]) true).mem.len := by decide
/-- FirstStepOfTheEmptyProgram: both ceilings. -/
theorem witness_empty_program : (Config.defaults 0).memCeiling = 0 ∧ 0 < (Config.defaults 1).memCeiling := by decide
/-- FieldsRecomposeTheWord: both signs. -/
theorem witness_fields : 0 ≤ (0#64).toInt ∧ (wrap64 (-1)).toInt < 0 := by decide
/-- DecodeOfEncodeIsTheInstruction. -/
theorem witness_round_trip : (Instr.inp .immediate).wellFormedUnder otherConfig.immWrite = true := by decide
/-- OperationOutsideTheMapIsUnsupported: an OP between the ranges, and a negative word. -/
theorem witness_unsupported :
    (Executing (running [98]) ∧ (running [98]).ip < (running [98]).mem.len ∧
      (running [98]).mem.cell 0 = 98#64 ∧ Int.tmod (98#64).toInt 100 ∉ [1, 2, 3, 4, 5, 6, 7, 8, 9, 99]) ∧
    (Executing (running [-99]) ∧ (running [-99]).ip < (running [-99]).mem.len ∧
      (running [-99]).mem.cell 0 = wrap64 (-99) ∧ (wrap64 (-99)).toInt < 0) :=
  ⟨⟨⟨rfl, rfl⟩, by decide, by decide, by decide⟩, ⟨rfl, rfl⟩, by decide, by decide, by decide⟩
/-- ModeDigitsAreCheckedByRole: an illegal digit (301), and legal ones (21101). -/
theorem witness_modes_illegal :
    Executing (running [301]) ∧ (running [301]).ip < (running [301]).mem.len ∧
      Int.tmod ((running [301]).mem.cell 0).toInt 100 = (Operation.add.code : Int) ∧
      Int.tdiv ((running [301]).mem.cell 0).toInt 100000 = 0 ∧
      Operation.add.roles[0]? = some Role.read ∧
      ¬ LegalMode .fault .read (digit ((running [301]).mem.cell 0).toInt (0 + 2)) :=
  ⟨⟨rfl, rfl⟩, by decide, by decide, by decide, rfl, by unfold LegalMode; decide⟩
theorem witness_modes_legal :
    Executing (running [104]) ∧ (running [104]).ip < (running [104]).mem.len ∧
      Int.tmod ((running [104]).mem.cell 0).toInt 100 = (Operation.out.code : Int) ∧
      Int.tdiv ((running [104]).mem.cell 0).toInt 100000 = 0 ∧
      ∀ (k : Nat) (role : Role), Operation.out.roles[k]? = some role →
        LegalMode .fault role (digit ((running [104]).mem.cell 0).toInt (k + 2)) := by
  refine ⟨⟨rfl, rfl⟩, by decide, by decide, by decide, ?_⟩
  intro k role h
  cases k with
  | zero =>
    cases h
    unfold LegalMode
    decide
  | succ k => cases h
/-- UnusedModeDigitsAreIgnored: HALT's three digits are unused. -/
theorem witness_unused_digits :
    Int.tmod (99#64).toInt 100 = (Operation.halt.code : Int) ∧
      Int.tmod (31299#64).toInt 100 = (Operation.halt.code : Int) ∧
      Int.tdiv (99#64).toInt 100000 = Int.tdiv (31299#64).toInt 100000 ∧
      ∀ k, k < Operation.halt.roles.length → digit (99#64).toInt (k + 2) = digit (31299#64).toInt (k + 2) :=
  ⟨by decide, by decide, by decide, fun _ h => absurd h (by simp [Operation.roles])⟩
/-- HighDigitsFollowTheirParameter: both values of the parameter. -/
theorem witness_high_digits :
    Executing (running [100099]) ∧ (running [100099]).ip < (running [100099]).mem.len ∧
      Int.tmod ((running [100099]).mem.cell 0).toInt 100 = (Operation.halt.code : Int) ∧
      Int.tdiv ((running [100099]).mem.cell 0).toInt 100000 ≠ 0 ∧
      otherConfig.highDigits = .fault ∧ (Config.defaults 0).highDigits = .ignore :=
  ⟨⟨rfl, rfl⟩, by decide, by decide, by decide, rfl, rfl⟩
/-- StepRunsTheDecodedInstruction: each state that executes, and each outcome of the fetch. -/
theorem witness_step_runs :
    ((built [99]).fault = none ∧ (built [99]).state = .notStarted ∧ (built [99]).ip < (built [99]).mem.len ∧
      decodeWord Config.chosen ((built [99]).mem.cell (built [99]).ip) = .ok .halt) ∧
    ((running [0]).fault = none ∧ (running [0]).state = .running ∧
      decodeWord Config.chosen ((running [0]).mem.cell (running [0]).ip) = .error .unsupportedOperation) ∧
    ((((built []).setState .awaitingInput).setInq [1#64]).fault = none ∧
      (((built []).setState .awaitingInput).setInq [1#64]).state = .awaitingInput ∧
      (((built []).setState .awaitingInput).setInq [1#64]).inq ≠ [] ∧ (built []).mem.len ≤ (built []).ip) :=
  ⟨⟨rfl, rfl, by decide, rfl⟩, ⟨rfl, rfl, rfl⟩, rfl, rfl, by decide, by decide⟩
/-- HaltedStepChangesNothing, RunAtRestIsANoOp, EnqueueInputAppendsUnlessHalted (halted). -/
theorem witness_halted : ((built [99]).setState .halted).fault = none ∧
    ((built [99]).setState .halted).state = .halted := ⟨rfl, rfl⟩
/-- FaultedCoreHasNoStep, FaultedCoreRefusesTransactions. -/
theorem witness_faulted : ((built [0]).setFault (some (.unsupportedOpcode 0 0#64 0))).fault =
    some (.unsupportedOpcode 0 0#64 0) := rfl

/-- A CORE that waits on `IN [2]`. -/
def waiting : State := (built [3, 2, 99]).setState .awaitingInput

theorem waiting_inv : waiting.Inv :=
  ⟨by decide, rfl, fun h => (by cases h), fun _ => ⟨.position, rfl⟩, fun h => (by cases h)⟩
/-- With a value queued. -/
theorem fed_inv : (waiting.setInq [5#64]).Inv :=
  ⟨by decide, rfl, fun h => (by cases h), fun _ => ⟨.position, rfl⟩, fun h => (by cases h)⟩
/-- AwaitingStepCompletesThePendingIn: both queues. -/
theorem witness_awaiting :
    (waiting.Inv ∧ waiting.state = .awaitingInput ∧ waiting.inq = []) ∧
    ((waiting.setInq [5#64]).Inv ∧ (waiting.setInq [5#64]).state = .awaitingInput ∧
      (waiting.setInq [5#64]).inq = 5#64 :: [] ∧ StoresAt (waiting.setInq [5#64]) .position 1 2) :=
  ⟨⟨waiting_inv, rfl, rfl⟩, fed_inv, rfl, rfl, 2#64, ⟨by decide, by decide⟩, ⟨by decide, by decide⟩, by decide⟩
/-- StateTransitionsAreThoseOfTheTable, StepKeepsTheInvariant: a step from a state of the invariant. -/
theorem witness_transition : (built [99]).Inv ∧ step (built [99]) = .next ((built [99]).setState .halted) :=
  ⟨⟨by decide, rfl, fun _ => ⟨rfl, rfl, rfl⟩, fun h => (by cases h), fun h => (by cases h)⟩, rfl⟩
theorem witness_transition_resume : (waiting.setInq [5#64]).Inv ∧
    after (step (waiting.setInq [5#64])) (fun t => (t.state, t.ip)) = some (.running, 2) := ⟨fed_inv, by decide⟩
theorem witness_step_fault : step (running [0]) = .fault (.unsupportedOpcode 0 0#64 0) := rfl
theorem witness_enqueue_dequeue :
    Driver.enqueueInput 1#64 waiting = .ok (waiting.pushInput 1#64) ∧
    Driver.dequeueOutput (waiting.setOutq [1#64]) = .ok (some 1#64, waiting) := ⟨rfl, rfl⟩
/-- InstructionPointerWrites: a running CORE whose fetch and step answer, and a halted one. -/
theorem witness_ip_write : (demo.state = .running ∧
      fetch Config.chosen demo = .ok (.add .position .immediate .relative) ∧
      step demo = .next (advance .add (demo.setMem (demo.mem.store 5 10#64)))) ∧
    (((built [99]).setState .halted).state = .halted ∧
      step ((built [99]).setState .halted) = .next ((built [99]).setState .halted)) :=
  ⟨⟨rfl, rfl, rfl⟩, rfl, rfl⟩
/-- RelativeBaseIsChangedOnlyByArb: a step that changes `rb`. -/
theorem witness_rb_change : step (running [109, 1]) = .next (advance .arb ((running [109, 1]).setRb 1#64)) ∧
    (advance .arb ((running [109, 1]).setRb 1#64)).rb ≠ (running [109, 1]).rb := ⟨rfl, by decide⟩
/-- StepMovesQueuesOnlyByInAndOut: a step that moves a queue. -/
theorem witness_queue_step : step (running [104, 8]) = .next (advance .out ((running [104, 8]).pushOutput 8#64)) := rfl
/-- MemoryIsWrittenOnlyAtDestinations: a step that writes. -/
theorem witness_memory_step : (advance .add (demo.setMem (demo.mem.store 5 10#64))).mem ≠ demo.mem := by decide
/-- SumAndProductAreExactThenWrapped, ComparisonsWriteOneOrZero. -/
theorem witness_results : demo.mem.wf = true ∧ ReadsTo demo .position 1 7#64 ∧ ReadsTo demo .immediate 2 3#64 ∧
    StoresAt demo .relative 3 5 := ⟨by decide, demo_reads_position, demo_reads_immediate, demo_stores_relative⟩
/-- JumpTargetLaw: taken and not taken, target 0, negative, and beyond memory. -/
theorem witness_jumps :
    (ReadsTo (running [1105, 1, 0]) .immediate 1 1#64 ∧ ReadsTo (running [1105, 1, 0]) .immediate 2 0#64 ∧
      (1#64).toInt ≠ 0 ∧ 0 ≤ (0#64).toInt) ∧
    (ReadsTo (running [1106, 0, -1]) .immediate 1 0#64 ∧
      ReadsTo (running [1106, 0, -1]) .immediate 2 (wrap64 (-1)) ∧ (0#64).toInt = 0 ∧ (wrap64 (-1)).toInt < 0) ∧
    BadParam (running [105, 0, 3]) .read .immediate 3 3 ∧
    (Executing (running [99]) ∧ ((running [99]).mem.len : Int) ≤ (1#64).toInt) :=
  ⟨⟨⟨1#64, ⟨by decide, by decide⟩, rfl⟩, ⟨0#64, ⟨by decide, by decide⟩, rfl⟩, by decide, by decide⟩,
    ⟨⟨0#64, ⟨by decide, by decide⟩, rfl⟩, ⟨wrap64 (-1), ⟨by decide, by decide⟩, rfl⟩, by decide, by decide⟩,
    .inl ⟨by decide, by decide⟩, ⟨rfl, rfl⟩, by decide⟩
/-- JumpTargetLaw: a first parameter that resolves and a second that is bad (JMP7). -/
theorem witness_jump_bad_target :
    ReadsTo (running [105, 0, 50, 99]) .position 1 105#64 ∧
      BadParam (running [105, 0, 50, 99]) .read .position 2 50 :=
  ⟨⟨0#64, ⟨by decide, by decide⟩, ⟨by decide, by decide⟩, by decide⟩,
    .inr ⟨50#64, ⟨by decide, by decide⟩, by decide, (fun h => absurd h.2 (by decide)), by decide⟩⟩
/-- InSuspendsBeforeResolving: an empty queue, and a queued value with a bad destination (IN3). -/
theorem witness_in_suspends :
    (running [3, 50, 99]).inq = [] ∧ ((running [3, 50, 99]).setInq [1#64]).inq ≠ [] ∧
      BadParam ((running [3, 50, 99]).setInq [1#64]) .destination .position 1 50 :=
  ⟨rfl, by decide, .inr ⟨50#64, ⟨by decide, by decide⟩, by decide, (fun h => absurd h.2 (by decide)), by decide⟩⟩
/-- InTakesTheHeadOfTheQueue: into its own opcode word. -/
theorem witness_in_takes :
    ((running [3, 0, 99]).setInq [5#64]).mem.wf = true ∧ ((running [3, 0, 99]).setInq [5#64]).inq = 5#64 :: [] ∧
      StoresAt ((running [3, 0, 99]).setInq [5#64]) .position 1 0 :=
  ⟨by decide, rfl, 0#64, ⟨by decide, by decide⟩, ⟨by decide, by decide⟩, by decide⟩
/-- OutAppendsItsOperand, ArbAddsItsOperandToTheBase. -/
theorem witness_one_operand : ReadsTo demo .position 1 7#64 := demo_reads_position
/-- HaltStopsOnOpcode99: with ignored digits, under both values of HIGH_DIGITS. -/
theorem witness_halt :
    Executing (running [31299]) ∧ (running [31299]).ip < (running [31299]).mem.len ∧
      Int.tmod ((running [31299]).mem.cell (running [31299]).ip).toInt 100 = 99 ∧
      Int.tdiv ((running [31299]).mem.cell (running [31299]).ip).toInt 100000 = 0 :=
  ⟨⟨rfl, rfl⟩, by decide, by decide, by decide⟩
/-- ExecFaultsExactlyAtTheFirstBadAccess: an instruction that does not wait. -/
theorem witness_not_waiting : ¬ Waits (running [3, 0]) (.out .position) ∧
    ¬ Waits (waiting.setInq [1#64]) (.inp .position) :=
  ⟨fun h => (by obtain ⟨⟨d, hd⟩, _⟩ := h; cases hd), fun h => (by have h' := h.2; cases h')⟩
/-- RelativeAddressesDoNotWrap: the sum 0, and the sum −2^64 + 5. -/
theorem witness_relative :
    (HoldsParam ((running [204, -1]).setRb 1#64) 1 (wrap64 (-1)) ∧
      InMemory ((running [204, -1]).setRb 1#64) ((1#64).toInt + (wrap64 (-1)).toInt)) ∧
    (HoldsParam ((waiting.setMem (running [203, -9223372036854775803]).mem).setInq [1#64] |>.setRb
        (wrap64 (-9223372036854775808))) 1 (wrap64 (-9223372036854775803)) ∧
      ¬ InMemory ((waiting.setMem (running [203, -9223372036854775803]).mem).setInq [1#64] |>.setRb
        (wrap64 (-9223372036854775808)))
        ((wrap64 (-9223372036854775808)).toInt + (wrap64 (-9223372036854775803)).toInt)) :=
  ⟨⟨⟨by decide, by decide⟩, by decide, by decide⟩, ⟨by decide, by decide⟩, fun h => absurd h.1 (by decide)⟩
/-- FrameOfTheFourCellInstructions: a step that answers, and its destination. -/
theorem witness_frame_four :
    exec (.add .position .immediate .relative) demo = .next (advance .add (demo.setMem (demo.mem.store 5 10#64))) ∧
      destParam .relative 3 demo = .ok 5 := ⟨rfl, rfl⟩
/-- FrameOfIn: both queues. -/
theorem witness_frame_in :
    exec (.inp .position) (running [3, 2, 99]) = .next waiting ∧
    exec (.inp .position) ((running [3, 2, 99]).setInq [5#64]) =
      .next (advance .inp ((running [3, 2, 99]).setMem ((running [3, 2, 99]).mem.store 2 5#64))) ∧
    destParam .position 1 ((running [3, 2, 99]).setInq [5#64]) = .ok 2 := ⟨rfl, rfl, rfl⟩
/-- FrameOfTheInstructionsThatStoreNothing: each of the five answers. -/
theorem witness_frame_store_nothing :
    exec (.out .immediate) demo = .next (advance .out (demo.pushOutput 5#64)) ∧
    exec (.arb .immediate) demo = .next (advance .arb (demo.setRb 8#64)) ∧
    exec (.jt .immediate .immediate) demo = .next (demo.setIp 3) ∧
    exec (.jf .immediate .immediate) demo = .next (advance .jf demo) ∧
    exec .halt demo = .next (demo.setState .halted) := ⟨rfl, rfl, rfl, rfl, rfl⟩
/-- MemReadAndMemWriteLaw: below 0, the last cell, the first address beyond. -/
theorem witness_memory :
    ((-1 : Int) < 0) ∧ (demo.mem.len : Int) ≤ 6 ∧ demo.mem.wf = true ∧ (0 : Int) ≤ 5 ∧ (5 : Int) < demo.mem.len := by
  decide
/-- LaterFetchesSeeTheStore: a store over the next opcode word, that decodes and that does not. -/
theorem witness_store_seen :
    demo.mem.wf = true ∧ memWrite demo 4 2#64 = .ok (demo.setMem (demo.mem.store 4 2#64)) ∧
      (((demo.setMem (demo.mem.store 4 2#64)).setIp 4).ip : Int) = 4 ∧
      decodeWord Config.chosen 2#64 = .ok (.mul .position .position .position) ∧
      memWrite demo 4 0#64 = .ok (demo.setMem (demo.mem.store 4 0#64)) ∧
      decodeWord Config.chosen 0#64 = .error .unsupportedOperation :=
  ⟨by decide, rfl, by decide, rfl, rfl, rfl⟩
/-- TransactionsKeepTheInvariant: each transaction answers. -/
theorem witness_transactions :
    (built [99]).Inv ∧ Driver.enqueueInput 1#64 (built [99]) = .ok ((built [99]).pushInput 1#64) ∧
      Driver.dequeueOutput (built [99]) = .ok (none, built [99]) ∧
      Driver.run 1 (built [99]) = .returned .ok ((built [99]).setState .halted) :=
  ⟨witness_transition.1, rfl, rfl, rfl⟩
/-- EnqueueInputAppendsUnlessHalted (not halted), DequeueOutputTakesTheOldest. -/
theorem witness_queues :
    waiting.fault = none ∧ waiting.state ≠ .halted ∧ waiting.outq = [] ∧
      (waiting.setOutq [1#64, 2#64]).outq = 1#64 :: [2#64] := ⟨rfl, by decide, rfl, rfl⟩
/-- ErrorsAreLatched: a step transaction and a run that end in an error. -/
theorem witness_latched :
    step (running [0]) = .fault (.unsupportedOpcode 0 0#64 0) ∧
    Driver.stepRequest (running [0]) = .ok (.err (.unsupportedOpcode 0 0#64 0),
      (running [0]).latch (.unsupportedOpcode 0 0#64 0)) ∧
    Driver.run 1 (running [0]) = .returned (.err (.unsupportedOpcode 0 0#64 0))
      ((running [0]).latch (.unsupportedOpcode 0 0#64 0)) := ⟨rfl, rfl, rfl⟩
/-- InspectMemoryReadsOneCell: no fault; the addresses are those of `witness_memory`. -/
theorem witness_inspect : demo.fault = none := rfl
/-- RunReturnsOnlyAtRestOrWithAnError, RunReturnsTheSameHoweverLongWatched, RunEqualsASequenceOfSteps. -/
theorem witness_run :
    Driver.run 2 (built [109, 1, 99]) =
      .returned .ok ((advance .arb ((running [109, 1, 99]).setRb 1#64)).setState .halted) ∧ (2 : Nat) ≤ 3 :=
  ⟨rfl, by decide⟩
/-- RunAtRestIsANoOp: the waiting CORE. -/
theorem witness_rest : waiting.fault = none ∧ waiting.state = .awaitingInput ∧ waiting.inq = [] := ⟨rfl, rfl, rfl⟩
/-- FeedingLaterEqualsFeedingFirst: V4's shape, with IN [2] and a HALT. -/
theorem witness_feeding :
    Driver.run 1 (built [3, 3, 99, 0]) = .returned .ok ((built [3, 3, 99, 0]).setState .awaitingInput) ∧
    Driver.enqueueInput 5#64 ((built [3, 3, 99, 0]).setState .awaitingInput) =
      .ok (((built [3, 3, 99, 0]).setState .awaitingInput).setInq [5#64]) ∧
    Driver.run 2 (((built [3, 3, 99, 0]).setState .awaitingInput).setInq [5#64]) =
      .returned .ok ((advance .inp ((running [3, 3, 99, 0]).setMem
        ((running [3, 3, 99, 0]).mem.store 3 5#64))).setState .halted) := ⟨rfl, rfl, rfl⟩
/-- OutputQueueDoesNotInfluenceTheStep: an output step and a fault. -/
theorem witness_output_queue :
    step (running [104, 8]) = .next (advance .out ((running [104, 8]).pushOutput 8#64)) ∧
    step (running [0]) = .fault (.unsupportedOpcode 0 0#64 0) := ⟨rfl, rfl⟩
/-- HandOffMovesOutputsInOrder: both receivers. -/
theorem witness_hand_off :
    (running [99]).fault = none ∧ waiting.fault = none ∧ waiting.state ≠ .halted ∧
      ((built [99]).setState .halted).fault = none ∧ ((built [99]).setState .halted).state = .halted :=
  ⟨rfl, rfl, by decide, rfl, rfl⟩
/-- TransactionsOnOneCoreLeaveTheOthers: two COREs, and a faulted one. -/
theorem witness_fleet :
    (1 : Nat) ≠ 0 ∧ [Fleet.idle demo, Fleet.idle waiting][1]? = some (Fleet.idle waiting) ∧
      [Fleet.idle demo, Fleet.idle waiting][0]? = some (Fleet.idle demo) ∧ demo.fault = none ∧
      [Fleet.idle (demo.setFault (some (.invalidAddress 0 9)))][0]? =
        some (Fleet.idle (demo.setFault (some (.invalidAddress 0 9)))) ∧
      (demo.setFault (some (.invalidAddress 0 9))).fault ≠ none := by decide
/-- NoTransactionBeginsDuringARun: a run in progress, one that is not over after one step, and one
that returns. -/
theorem witness_in_run :
    [({ core := running [109, 1, 99], inRun := true } : Fleet.Member)][0]? =
      some { core := running [109, 1, 99], inRun := true } ∧
    [Fleet.idle (built [109, 1, 99])][0]? = some (Fleet.idle (built [109, 1, 99])) ∧
    Driver.run 1 (built [109, 1, 99]) = .unfinished (advance .arb ((running [109, 1, 99]).setRb 1#64)) ∧
    Driver.run 1 (built [99]) = .returned .ok ((built [99]).setState .halted) := ⟨rfl, rfl, rfl, rfl⟩
/-- ARunWatchedInPartsIsOneRun. -/
theorem witness_run_in_parts :
    [Fleet.idle (built [109, 1, 99])][0]? = some (Fleet.idle (built [109, 1, 99])) ∧
    (Fleet.apply (.send 0 (.run 1)) [Fleet.idle (built [109, 1, 99])]).1 = .unfinished := ⟨rfl, rfl⟩
/-- OffsetWords: a label, and the numbers of both signs. -/
theorem witness_offsets :
    [("x", 6)].lookup "x" = some 6 ∧ 6 < 2 ^ 63 ∧ -(2 ^ 63) < (-1 : Int) ∧ (1 : Int) < 2 ^ 63 := by decide
/-- DisassemblyUndoesAssembly: an instruction with a label, one of literals as a listing writes it, a
refused word, a word that does not come back. -/
theorem witness_disassembly :
    Assembly.itemCells [("x", 6)] (.insn (.out (.relative (.minus (.label "x"))))) = .ok (prog [204, -6]) ∧
    Assembly.itemCells [] (.insn (.out (.relative (.minus (.literal 1))))) = .ok (prog [204, -1]) ∧
    (∀ o ∈ Assembly.offsets (.out (.relative (.minus (.literal 1)))), ∃ v, o = Assembly.signedOf v) ∧
    decodeWord (Config.defaults 0) 0#64 = .error .unsupportedOperation ∧
    decodeWord (Config.defaults 0) 199#64 = .ok .halt ∧ Instr.halt.wellFormedUnder .fault = true ∧
      Instr.halt.modes.length ≤ ([] : List Word).length ∧ encodeWord .halt ≠ 199#64 :=
  ⟨rfl, rfl, by simpa [Assembly.offsets, Assembly.sourceOffsets] using ⟨wrap64 (-1), by decide⟩, rfl, rfl, rfl, by decide, by decide⟩

end Sys2Proof.Tests
end

section
/-! MemRead and MemWrite (20_memory.md R44, R45): what each answers outside and inside memory, and
what a read finds after a write. -/

namespace Sys2Proof.Machine

variable {s t : State} {a b : Int} {v : Word}

theorem not_inMemory_iff : ¬ InMemory s a ↔ a < 0 ∨ (s.mem.len : Int) ≤ a := by
  unfold InMemory
  omega

theorem memWrite_of_not_inMemory (h : ¬ InMemory s a) :
    memWrite s a v = .error (.invalidAddress s.ip a) := by
  unfold memWrite
  rw [if_neg (mt contains_inMemory.mp h)]
  rfl

theorem memWrite_of_inMemory (h : InMemory s a) :
    memWrite s a v = .ok (s.setMem (s.mem.store a.toNat v)) := by
  unfold memWrite
  rw [if_pos (contains_inMemory.mpr h)]

theorem memRead_memWrite_self (hw : memWrite s a v = .ok t) (hwf : s.mem.wf = true) :
    memRead t a = .ok v := by
  obtain ⟨ha, rfl⟩ := memWrite_ok hw
  exact memRead_ok_iff.mpr ⟨ha, (Memory.cell_store_self hwf).symm⟩

theorem memRead_memWrite_other (hw : memWrite s a v = .ok t) (hb : b ≠ a) :
    memRead t b = memRead s b := by
  obtain ⟨⟨ha, _⟩, rfl⟩ := memWrite_ok hw
  by_cases hin : InMemory s b
  · have hne : b.toNat ≠ a.toNat := by
      have := hin.1
      omega
    rw [memRead_ok_iff.mpr ⟨hin, rfl⟩]
    exact memRead_ok_iff.mpr ⟨hin, (Memory.cell_store_other hne).symm⟩
  · rw [memRead_error_iff.mpr ⟨hin, rfl⟩]
    exact memRead_error_iff.mpr ⟨hin, rfl⟩

/-- Settles O35: the bounds check decides both accesses, and a successful write stores one cell of
memory (R45). The canonical form of memory is needed only to read the value written back. -/
theorem memReadAndMemWriteLaw : Obligations.MemReadAndMemWriteLaw := by
  intro s a v
  refine ⟨fun hout => ?outside, fun h0 h1 => ?read, fun hwf h0 h1 => ?write⟩
  case outside =>
    have hn : ¬ InMemory s a := not_inMemory_iff.mpr hout
    exact ⟨memRead_error_iff.mpr ⟨hn, rfl⟩, memWrite_of_not_inMemory hn⟩
  case read => exact memRead_ok_iff.mpr ⟨⟨h0, h1⟩, rfl⟩
  case write =>
    have hw := memWrite_of_inMemory (v := v) (⟨h0, h1⟩ : InMemory s a)
    exact ⟨_, hw, memRead_memWrite_self hw hwf, fun _ hb => memRead_memWrite_other hw hb,
      by simp⟩

end Sys2Proof.Machine
end

section
/-! A step request on a CORE that does not execute (40_engine.md R90, R92). -/

namespace Sys2Proof.Machine

variable {s : State}

theorem activity_of_halted (hf : s.fault = none) (hs : s.state = .halted) :
    activity s = .idle := by
  unfold activity
  rw [hf, hs]

/-- Under every value of the parameters: an idle step request fetches nothing. -/
theorem stepWith_of_idle {c : Config} (h : activity s = .idle) : stepWith c s = .next s := by
  unfold stepWith
  rw [h]

/-- Settles O14: a step request in `Halted` is idle, and an idle one answers the state it was sent
to. The premise on the latch is needed: a halted CORE with a latched fault refuses (R93). -/
theorem haltedStepChangesNothing : Obligations.HaltedStepChangesNothing := by
  intro s hf hs
  exact stepWith_of_idle (activity_of_halted hf hs)

end Sys2Proof.Machine
end

section
/-! The comparisons (42_comparison.md R120 to R122): what a four-cell instruction changes, and the
value LT and EQ give it to write. -/

namespace Sys2Proof.Machine

variable {s : State} {a b d : Mode} {x y v : Word} {p : Nat}

/-- The canonical form of memory is needed only to read back the cell written. -/
theorem wroteCell_advance_store (o : Operation) (hwf : s.mem.wf = true) :
    WroteCell s (advance o (s.setMem (s.mem.store p v))) p v o.length where
  written := Memory.cell_store_self hwf
  others _ hq := Memory.cell_store_other hq
  len := Memory.store_len ..
  ip := by simp
  rb := by simp
  state := by simp
  outq := by simp
  fault := by simp

/-- The completion and the frame of every four-cell instruction, whatever it computes. -/
theorem finish_writeResult_wroteCell (f : Word → Word → Word) (o : Operation)
    (hwf : s.mem.wf = true) (hx : ReadsTo s a 1 x) (hy : ReadsTo s b 2 y) (hp : StoresAt s d 3 p) :
    ∃ t, finish (writeResult f o a b d s) = .next t ∧ WroteCell s t p (f x y) o.length ∧
      t.inq = s.inq :=
  ⟨_, finish_next_iff.mpr (writeResult_completes hx hy hp), wroteCell_advance_store o hwf, by simp⟩

theorem b2i_decide (c : Prop) [Decidable c] : b2i (decide c) = if c then 1#64 else 0#64 := by
  simp [b2i]

theorem lessBit_eq_ite (x y : Word) : lessBit x y = if x.toInt < y.toInt then 1#64 else 0#64 :=
  b2i_decide _

theorem equalBit_eq_ite (x y : Word) : equalBit x y = if x.toInt = y.toInt then 1#64 else 0#64 :=
  b2i_decide _

/-- Settles O23: LT and EQ are four-cell instructions whose results are the 0-or-1 values of R122;
the order of resolution and the frame are those of every four-cell instruction. -/
theorem comparisonsWriteOneOrZero : Obligations.ComparisonsWriteOneOrZero := by
  intro s a b d x y p hwf hx hy hp
  rw [← lessBit_eq_ite, ← equalBit_eq_ite]
  exact ⟨finish_writeResult_wroteCell lessBit .lt hwf hx hy hp,
    finish_writeResult_wroteCell equalBit .eq hwf hx hy hp⟩

end Sys2Proof.Machine
end

section
/-! The decoder on every word (30_encoding.md R62 to R78): the fields make up the word, an encoded
instruction decodes to itself, and a word decodes to an instruction exactly by its low digits. -/

namespace Sys2Proof

variable {c : Config} {w w' : Word} {i : Instr} {o : Operation}

/-- Settles O4: the fields of a word that is not negative are its decimal digits, those of a
negative word the negated digits of its size. -/
theorem fieldsRecomposeTheWord : Obligations.FieldsRecomposeTheWord := by
  intro w
  rcases Int.le_total 0 w.toInt with h | h
  · rw [fields_of_nonneg h]
    dsimp only
    omega
  · rw [fields_of_neg (n := -w.toInt) (by omega) (by omega)]
    dsimp only
    omega

/-- Settles O5. -/
theorem fieldsOfTheSourceExamples : Obligations.FieldsOfTheSourceExamples := ⟨rfl, rfl, rfl⟩

/-- Settles O6: the decoder computes on each of the words, and no check it makes looks at the
parameters. -/
theorem wordsOfEveryOperationDecode : Obligations.WordsOfEveryOperationDecode :=
  fun _ => ⟨rfl, rfl, rfl, rfl, rfl, rfl, rfl, rfl, rfl, rfl⟩

/-- The fields of every instruction's opcode word. -/
theorem fields_encodeWord (i : Instr) : Laws.EncodeFields.Statement i := by
  cases i with
  | add a b d => exact Laws.EncodeFields.add a b d
  | mul a b d => exact Laws.EncodeFields.mul a b d
  | inp d => exact Laws.EncodeFields.inp d
  | out a => exact Laws.EncodeFields.out a
  | jt c t => exact Laws.EncodeFields.jt c t
  | jf c t => exact Laws.EncodeFields.jf c t
  | lt a b d => exact Laws.EncodeFields.lt a b d
  | eq a b d => exact Laws.EncodeFields.eq a b d
  | arb a => exact Laws.EncodeFields.arb a
  | halt => exact Laws.EncodeFields.halt

theorem modesMatch_fields_encodeWord (i : Instr) : modesMatch (fields (encodeWord i)) i.modes := by
  rw [fields_encodeWord i]
  cases i <;> simp [Instr.modes, modesMatch]

theorem decodeWord_encodeWord (h : i.wellFormedUnder c.immWrite = true) :
    decodeWord c (encodeWord i) = .ok i := by
  have hf : (fields (encodeWord i)).op = i.operation.code ∧ (fields (encodeWord i)).hi = 0 := by
    rw [fields_encodeWord i]
    exact ⟨rfl, rfl⟩
  exact decodeWord_ok_iff.mpr
    ⟨hf.1, fun _ => hf.2, instrOf_ok_iff.mpr ⟨modesMatch_fields_encodeWord i, h⟩⟩

/-- Settles O7: the fields of an encoded instruction are its OP value and its mode digits, with HI
0, so all three checks of the decoder pass on it. -/
theorem decodeOfEncodeIsTheInstruction : Obligations.DecodeOfEncodeIsTheInstruction :=
  fun _ _ h => decodeWord_encodeWord h

theorem Operation.code_pos (o : Operation) : 0 < o.code := by cases o <;> decide

theorem Operation.code_lt (o : Operation) : o.code < 100 := by cases o <;> decide

theorem Mode.digit_lt (m : Mode) : m.digit < 10 := by cases m <;> decide

theorem Instr.modes_length_le (i : Instr) : i.modes.length ≤ 3 := by cases i <;> simp [Instr.modes]

/-- A negative word has the OP value of no operation (30_encoding.md R72). -/
theorem nonneg_of_op_eq_code (h : (fields w).op = (o.code : Int)) : 0 ≤ w.toInt := by
  by_contra hn
  rw [fields_of_neg (n := -w.toInt) (by omega) (by omega)] at h
  have := o.code_pos
  dsimp only at h
  omega

/-- The two lowest digits and one more for each mode, as one number. -/
theorem lowDigits_eq_iff (hw : 0 ≤ w.toInt) {op : Nat} (hop : op < 100) {ms : List Mode}
    (hms : ms.length ≤ 3) :
    w.toInt % ((10 ^ (2 + ms.length) : Nat) : Int) = ((op + 100 * modeDigits ms : Nat) : Int) ↔
      (fields w).op = op ∧ modesMatch (fields w) ms := by
  rw [fields_of_nonneg hw]
  match ms, hms with
  | [], _ => simp [modesMatch, modeDigits]
  | [a], _ =>
    have ha := a.digit_lt
    simp only [modesMatch, modeDigits, List.length_cons, List.length_nil, Nat.reduceAdd,
      Nat.reducePow]
    omega
  | [a, b], _ =>
    have ha := a.digit_lt
    have hb := b.digit_lt
    simp only [modesMatch, modeDigits, List.length_cons, List.length_nil, Nat.reduceAdd,
      Nat.reducePow]
    omega
  | [a, b, d], _ =>
    have ha := a.digit_lt
    have hb := b.digit_lt
    have hd := d.digit_lt
    simp only [modesMatch, modeDigits, List.length_cons, List.length_nil, Nat.reduceAdd,
      Nat.reducePow]
    omega

theorem hi_eq_zero_iff (hw : 0 ≤ w.toInt) : (fields w).hi = 0 ↔ w.toInt < 100000 := by
  rw [fields_of_nonneg hw]
  dsimp only
  omega

/-- Settles O8: only a word that is not negative has an operation, and on such a word the three
checks are conditions on its low digits and on its size. -/
theorem decodeAcceptsExactlyTheLegalWords : Obligations.DecodeAcceptsExactlyTheLegalWords := by
  intro c w i
  rw [decodeWord_ok_iff, instrOf_ok_iff]
  constructor
  · rintro ⟨hop, hhi, hm, hwf⟩
    have hw := nonneg_of_op_eq_code hop
    exact ⟨hwf, hw, (lowDigits_eq_iff hw i.operation.code_lt i.modes_length_le).mpr ⟨hop, hm⟩,
      fun hf => (hi_eq_zero_iff hw).mp (hhi hf)⟩
  · rintro ⟨hwf, hw, hlow, hhi⟩
    obtain ⟨hop, hm⟩ := (lowDigits_eq_iff hw i.operation.code_lt i.modes_length_le).mp hlow
    exact ⟨hop, fun hf => (hi_eq_zero_iff hw).mpr (hhi hf), hm, hwf⟩

/-- The mode checks look at the digits of the parameters the operation has, and at no other. -/
theorem instrOf_congr {f f' : Fields} (h1 : 0 < o.roles.length → f.m1 = f'.m1)
    (h2 : 1 < o.roles.length → f.m2 = f'.m2) (h3 : 2 < o.roles.length → f.m3 = f'.m3) :
    instrOf c f o = instrOf c f' o := by
  cases o <;> simp_all [Operation.roles, instrOf]

theorem decodeWord_of_operation (h : Int.tmod w.toInt 100 = (o.code : Int)) :
    decodeWord c w =
      if highDigitsRefused c (fields w) then .error .highDigits else instrOf c (fields w) o := by
  have ho : operationOf (fields w).op = some o := operationOf_eq_some_iff.mpr h
  unfold decodeWord
  rw [ho]

/-- Two words of one operation decode alike if the check of the high digits and the mode digits that
the operation has are alike. -/
theorem decodeWord_congr (h : Int.tmod w.toInt 100 = (o.code : Int))
    (h' : Int.tmod w'.toInt 100 = (o.code : Int))
    (hhi : highDigitsRefused c (fields w) = highDigitsRefused c (fields w'))
    (hm : ∀ k, k < o.roles.length → digit w.toInt (k + 2) = digit w'.toInt (k + 2)) :
    decodeWord c w = decodeWord c w' := by
  rw [decodeWord_of_operation h, decodeWord_of_operation h', hhi,
    instrOf_congr (f := fields w) (f' := fields w') (hm 0) (hm 1) (hm 2)]

/-- Settles O11: such words pass or fail each check together. -/
theorem unusedModeDigitsAreIgnored : Obligations.UnusedModeDigitsAreIgnored := by
  refine ⟨fun c w w' o h h' hhi hm => decodeWord_congr h h' ?_ hm,
    fun c => ⟨rfl, rfl, rfl, rfl⟩⟩
  have hf : (fields w).hi = (fields w').hi := hhi
  simp only [highDigitsRefused, hf]

end Sys2Proof
end

section
/-! The step request (40_engine.md R90 to R94): what it fetches, when it executes, and the faults of
the fetch. -/

namespace Sys2Proof.Machine

variable {c : Config} {s u : State} {w : Word} {i : Instr} {o : Operation}

theorem fetch_ok_iff :
    fetch c s = .ok i ↔ s.ip < s.mem.len ∧ decodeWord c (s.mem.cell s.ip) = .ok i := by
  by_cases h : s.ip < s.mem.len
  · rw [fetch_of_lt h]
    cases decodeWord c (s.mem.cell s.ip) <;> simp [h]
  · rw [fetch_of_le (by omega)]
    simp [h]

theorem fetch_of_refused {e : DecodeRefusal} (h : s.ip < s.mem.len)
    (hd : decodeWord c (s.mem.cell s.ip) = .error e) :
    fetch c s = .error (.unsupportedOpcode s.ip (s.mem.cell s.ip)
      (Int.tmod (s.mem.cell s.ip).toInt 100)) := by
  rw [fetch_of_lt h, hd]
  rfl

@[simp] theorem fetch_setState (x : ExecState) : fetch c (s.setState x) = fetch c s :=
  fetch_congr rfl rfl

@[simp] theorem fetch_pushInput (v : Word) : fetch c (s.pushInput v) = fetch c s :=
  fetch_congr rfl rfl

@[simp] theorem fetch_setOutq (q : List Word) : fetch c (s.setOutq q) = fetch c s :=
  fetch_congr rfl rfl

theorem stepWith_of_execute (ha : activity s = .execute u) (hi : fetch c s = .ok i) :
    stepWith c s = exec i u := by
  obtain ⟨-, rfl, -⟩ := activity_execute ha
  simp only [stepWith, ha, fetch_setState, hi]

theorem stepWith_of_fetch_error {e : Fault} (ha : activity s = .execute u)
    (hi : fetch c s = .error e) : stepWith c s = .fault e := by
  obtain ⟨-, rfl, -⟩ := activity_execute ha
  simp only [stepWith, ha, fetch_setState, hi]

/-- The one inversion of a step that answers: it was idle, or it executed the fetched instruction in
state Running. -/
theorem stepWith_next_cases {t : State} (h : stepWith c s = .next t) :
    (activity s = .idle ∧ t = s) ∨
      ∃ i, activity s = .execute (s.setState .running) ∧ fetch c s = .ok i ∧
        exec i (s.setState .running) = .next t := by
  rcases stepWith_next h with hidle | ⟨u, i, ha, hi, he⟩
  · exact .inl hidle
  · obtain ⟨-, rfl, -⟩ := activity_execute ha
    exact .inr ⟨i, ha, by simpa using hi, he⟩

theorem activity_of_executing (h : Executing s) :
    activity s = .execute (s.setState .running) := activity_of_awake h.1 (.inr (.inl h.2))

theorem Executing.setState_running (h : Executing s) : s.setState .running = s := by
  obtain ⟨-, hs⟩ := h
  cases s
  cases hs
  rfl

/-- A running CORE whose word at `ip` is refused ends its step with the record of that word. -/
theorem stepWith_of_refused {e : DecodeRefusal} (h : Executing s) (hip : s.ip < s.mem.len)
    (hw : s.mem.cell s.ip = w) (hd : decodeWord c w = .error e) :
    stepWith c s = .fault (.unsupportedOpcode s.ip w (Int.tmod w.toInt 100)) := by
  subst hw
  exact stepWith_of_fetch_error (activity_of_executing h) (fetch_of_refused hip hd)

theorem stepWith_of_decoded (h : Executing s) (hip : s.ip < s.mem.len)
    (hd : decodeWord c (s.mem.cell s.ip) = .ok i) : stepWith c s = exec i s := by
  rw [stepWith_of_execute (activity_of_executing h) (fetch_ok_iff.mpr ⟨hip, hd⟩),
    h.setState_running]

/-- Settles O13: such a CORE executes, in state Running, what its fetch gives. -/
theorem stepRunsTheDecodedInstruction : Obligations.StepRunsTheDecodedInstruction := by
  intro s hf hs
  have ha := activity_of_awake hf hs
  exact ⟨fun hip => stepWith_of_fetch_error ha (fetch_of_le hip), fun hip =>
    ⟨fun i hd => stepWith_of_execute ha (fetch_ok_iff.mpr ⟨hip, hd⟩),
      fun e hd => stepWith_of_fetch_error ha (fetch_of_refused hip hd)⟩⟩

theorem activity_of_fault {e : Fault} (h : s.fault = some e) : activity s = .refuse := by
  unfold activity
  rw [h]

/-- Settles O15: the latch is looked at before anything else. -/
theorem faultedCoreHasNoStep : Obligations.FaultedCoreHasNoStep := by
  intro s e h
  simp only [step, stepWith, activity_of_fault h]

/-- Settles O9: the operation check comes first, and the OP value of a negative word is 0 or
negative. -/
theorem operationOutsideTheMapIsUnsupported : Obligations.OperationOutsideTheMapIsUnsupported := by
  intro c s w h hip hw
  constructor
  · intro hop
    have ho : operationOf (fields w).op = none := operationOf_eq_none_iff.mpr hop
    have hd : decodeWord c w = .error .unsupportedOperation := by
      unfold decodeWord
      rw [ho]
    exact stepWith_of_refused h hip hw hd
  · intro hneg
    rw [← operationOf_eq_none_iff, Option.eq_none_iff_forall_not_mem]
    intro o ho
    have := nonneg_of_op_eq_code (operationOf_eq_some_iff.mp ho)
    omega

/-- A mode digit is legal for a read parameter exactly if it is the digit of a mode. -/
theorem legalMode_read_iff {x : ImmWrite} {d : Int} :
    LegalMode x .read d ↔ ∃ m : Mode, d = m.digit := by
  constructor
  · rintro (rfl | rfl | rfl)
    exacts [⟨.position, rfl⟩, ⟨.immediate, rfl⟩, ⟨.relative, rfl⟩]
  · rintro ⟨m, rfl⟩
    cases m <;> simp [LegalMode, Mode.digit]

theorem legalMode_destination_iff {x : ImmWrite} {d : Int} :
    LegalMode x .destination d ↔
      ∃ m : Mode, d = m.digit ∧ (m = .immediate → x = .asPosition) := by
  constructor
  · rintro (rfl | rfl | ⟨rfl, hx⟩)
    exacts [⟨.position, rfl, by simp⟩, ⟨.relative, rfl, by simp⟩, ⟨.immediate, rfl, fun _ => hx⟩]
  · rintro ⟨m, rfl, hm⟩
    cases m <;> simp_all [LegalMode, Mode.digit]

theorem forall_getElem?_cons {α : Type} {P : Nat → α → Prop} {a : α} {l : List α} :
    (∀ k x, (a :: l)[k]? = some x → P k x) ↔ P 0 a ∧ ∀ k x, l[k]? = some x → P (k + 1) x := by
  constructor
  · exact fun h => ⟨h 0 a rfl, fun k x hx => h (k + 1) x hx⟩
  · rintro ⟨h0, h⟩ (_ | k) x hx
    · cases hx
      exact h0
    · exact h k x hx

/-- The mode checks of an operation give an instruction exactly if each mode digit is legal for the
role of its parameter. -/
theorem exists_instrOf_ok_iff (c : Config) (w : Word) (o : Operation) :
    (∃ i, instrOf c (fields w) o = .ok i) ↔
      ∀ k role, o.roles[k]? = some role → LegalMode c.immWrite role (digit w.toInt (k + 2)) := by
  have hm : (fields w).m1 = digit w.toInt 2 ∧ (fields w).m2 = digit w.toInt 3 ∧
      (fields w).m3 = digit w.toInt 4 := ⟨rfl, rfl, rfl⟩
  cases o <;>
    simp [Operation.roles, forall_getElem?_cons, instrOf, bind_ok_iff, pure_ok_iff,
      readMode_ok_iff, destMode_ok_iff, legalMode_read_iff, legalMode_destination_iff, hm,
      -bind_pure_comp]

/-- Past the operation check and the check of the high digits, a word decodes, to an instruction of
its operation, exactly if its mode digits are legal. -/
theorem exists_decodeWord_ok_iff (hop : Int.tmod w.toInt 100 = (o.code : Int))
    (hhi : c.highDigits = .fault → Int.tdiv w.toInt 100000 = 0) :
    (∃ i, decodeWord c w = .ok i) ↔
      ∀ k role, o.roles[k]? = some role → LegalMode c.immWrite role (digit w.toInt (k + 2)) := by
  have hh : highDigitsRefused c (fields w) = false := highDigitsRefused_eq_false_iff.mpr hhi
  rw [← exists_instrOf_ok_iff, decodeWord_of_operation hop, hh]
  simp

theorem decodeWord_operation (hop : Int.tmod w.toInt 100 = (o.code : Int))
    (h : decodeWord c w = .ok i) : i.operation = o := by
  have hi := operationOf_eq_some_iff.mpr (decodeWord_ok_iff.mp h).1
  have ho : operationOf (fields w).op = some o := operationOf_eq_some_iff.mpr hop
  exact Option.some.inj (hi.symm.trans ho)

/-- Settles O10: the step fetches no parameter word before the whole word is decoded. -/
theorem modeDigitsAreCheckedByRole : Obligations.ModeDigitsAreCheckedByRole := by
  intro c s w o h hip hw hop hhi
  have hiff := exists_decodeWord_ok_iff hop hhi
  constructor
  · rintro ⟨k, role, hk, hbad⟩
    cases hd : decodeWord c w with
    | error e =>
      rw [stepWith_of_refused h hip hw hd, hop]
    | ok i => exact absurd (hiff.mp ⟨i, hd⟩ k role hk) hbad
  · intro hlegal
    obtain ⟨i, hd⟩ := hiff.mpr hlegal
    exact ⟨i, hd, decodeWord_operation hop hd⟩

theorem toInt_wrap64_of_small {n : Int} (h0 : 0 ≤ n) (h1 : n < 100000) : (wrap64 n).toInt = n :=
  BitVec.toInt_ofInt_eq_self (by decide) (by omega) (by omega)

/-- Without its digits at place 10^5 and above a word keeps its OP value and its mode digits. -/
theorem fields_wrap64_emod (h : 0 ≤ w.toInt) :
    fields (wrap64 (w.toInt % 100000)) = { fields w with hi := 0 } := by
  have ht := toInt_wrap64_of_small (n := w.toInt % 100000) (by omega) (by omega)
  rw [fields_of_nonneg h, fields_of_nonneg (by omega), ht]
  simp only [Fields.mk.injEq]
  omega

/-- Settles O12: the check of the high digits comes before the mode checks, and no other check looks
at them. -/
theorem highDigitsFollowTheirParameter : Obligations.HighDigitsFollowTheirParameter := by
  intro c s w o h hip hw hop hhi
  have hhi' : (fields w).hi ≠ 0 := hhi
  constructor
  · intro hc
    have hd : decodeWord c w = .error .highDigits := by
      rw [decodeWord_of_operation hop]
      simp [highDigitsRefused, hc, hhi']
    rw [stepWith_of_refused h hip hw hd, hop]
  · intro hc
    have hw0 : 0 ≤ w.toInt := nonneg_of_op_eq_code hop
    have hf := fields_wrap64_emod hw0
    have hop' : (fields (wrap64 (w.toInt % 100000))).op = (o.code : Int) := by
      rw [hf]
      exact hop
    rw [Int.tmod_eq_emod_of_nonneg hw0, decodeWord_of_operation hop, decodeWord_of_operation hop',
      hf]
    simp only [highDigitsRefused, hc, reduceCtorEq, decide_false, Bool.and_false,
      Bool.false_eq_true, if_false]
    exact instrOf_congr (fun _ => rfl) (fun _ => rfl) (fun _ => rfl)

/-- Settles O29: HALT has no parameters, so no mode digit is checked. -/
theorem haltStopsOnOpcode99 : Obligations.HaltStopsOnOpcode99 := by
  refine ⟨fun s => rfl, fun c s h hip hop hhi => ?_⟩
  have hd : decodeWord c (s.mem.cell s.ip) = .ok .halt :=
    decodeWord_ok_iff.mpr ⟨hop, hhi, rfl⟩
  exact stepWith_of_decoded h hip hd

end Sys2Proof.Machine
end

section
/-! Construction (70_reset_and_hazards.md R220 to R222, 20_memory.md R46). -/

namespace Sys2Proof.Machine

theorem Memory.construct_len (ceiling : Nat) (p : List Word) (pad : Bool) :
    (Memory.construct ceiling p pad).len =
      if pad = true then max p.length ceiling else p.length := by
  cases pad
  · simp [Memory.construct]
  · simp only [Memory.construct, Bool.true_and, decide_eq_true_eq, if_true]
    split <;> omega

@[simp] theorem State.newWith_mem (ceiling : Nat) (P : List Word) (pad : Bool) :
    (State.newWith ceiling P pad).mem = Memory.construct ceiling P pad := rfl

/-- Settles O1: the listing of the program holds its words and nothing after them. -/
theorem newCoreIsInTheResetState : Obligations.NewCoreIsInTheResetState := by
  intro ceiling P pad
  refine ⟨Memory.construct_len ceiling P pad, fun a v hv => ?_, fun a ha _ => ?_,
    rfl, rfl, rfl, rfl, rfl, rfl⟩
  · calc (Memory.construct ceiling P pad).cell a = P.getD a 0#64 := Memory.construct_cell ..
      _ = v := by simp [List.getD, hv]
  · calc (Memory.construct ceiling P pad).cell a = P.getD a 0#64 := Memory.construct_cell ..
      _ = 0#64 := by simp [List.getD, ha]

/-- Settles O2. -/
theorem resetIsTheEmptyConstruction : Obligations.ResetIsTheEmptyConstruction :=
  ⟨fun _ => rfl, rfl, rfl, rfl, rfl, rfl, rfl, rfl⟩

theorem activity_newWith (ceiling : Nat) (P : List Word) (pad : Bool) :
    activity (State.newWith ceiling P pad) =
      .execute ((State.newWith ceiling P pad).setState .running) :=
  activity_of_awake rfl (.inl rfl)

/-- Settles O3: a memory of length 0 has no word at address 0; padding gives it the word 0, which is
no operation's. -/
theorem firstStepOfTheEmptyProgram : Obligations.FirstStepOfTheEmptyProgram := by
  intro c
  refine ⟨stepWith_of_fetch_error (activity_newWith ..) (fetch_of_le (Nat.le_refl 0)),
    fun hc => stepWith_of_fetch_error (activity_newWith ..) (fetch_of_le ?_), fun hc => ?_⟩
  · simp [Memory.construct_len, hc]
  · have hlen : (State.newWith c.memCeiling [] true).mem.len = c.memCeiling := by
      simp [Memory.construct_len]
    exact ⟨hlen, fun _ => rfl, stepWith_of_fetch_error (activity_newWith ..)
      (fetch_of_refused (e := .unsupportedOperation) (hc.trans_eq hlen.symm) rfl)⟩

end Sys2Proof.Machine
end

section
/-! When an instruction faults (30_encoding.md R70, 60_exceptions.md R201, R207): each shared
operation raises the error of its first bad parameter. -/

namespace Sys2Proof.Machine

variable {s u : State} {e : Fault} {m a c g d : Mode} {k : Nat} {x p : Int} {v : Word}
  {rest : List Word} {taken : Word → Bool} {o : Operation} {i : Instr}

theorem readParam_of_bad (h : BadParam s .read m k x) :
    readParam m k s = .error (.invalidAddress s.ip x) := readParam_error_iff.mpr ⟨x, h, rfl⟩

theorem memWrite_of_destParam (h : destParam m k s = .ok p) (hu : u.mem = s.mem) :
    memWrite u p v = .ok (u.setMem (u.mem.store p.toNat v)) := by
  obtain ⟨hs, h0⟩ := destParam_ok_iff.mp h
  have hlt := hs.inMemory
  exact memWrite_of_inMemory ⟨h0, by rw [hu]; omega⟩

theorem firstBad_singleton {role : Role} : FirstBad s k [(role, m)] x ↔ BadParam s role m k x := by
  simp [FirstBad]

theorem giveOutput_error_iff :
    giveOutput a s = .error e ↔ ∃ x, FirstBad s 1 [(.read, a)] x ∧ e = .invalidAddress s.ip x := by
  simp only [firstBad_singleton, ← readParam_error_iff]
  unfold giveOutput
  cases readParam a 1 s <;> simp

theorem adjustBase_error_iff :
    adjustBase a s = .error e ↔ ∃ x, FirstBad s 1 [(.read, a)] x ∧ e = .invalidAddress s.ip x := by
  simp only [firstBad_singleton, ← readParam_error_iff]
  unfold adjustBase
  cases readParam a 1 s <;> simp

/-- The store of IN cannot fail: its address is checked when the destination is resolved. -/
theorem takeInput_error_iff : takeInput d v rest s = .error e ↔
    ∃ x, FirstBad s 1 [(.destination, d)] x ∧ e = .invalidAddress s.ip x := by
  simp only [firstBad_singleton, ← destParam_error_iff]
  unfold takeInput
  cases h : destParam d 1 s with
  | error e' => simp
  | ok p => simp [memWrite_of_destParam (u := s.setInq rest) h rfl]

/-- A jump with a bad parameter raises its error, taken or not (43_jumps.md R132). -/
theorem jumpWhen_of_firstBad (h : FirstBad s 1 [(.read, c), (.read, g)] x) :
    jumpWhen taken o c g s = .error (.invalidAddress s.ip x) := by
  obtain hc | ⟨⟨y, hy⟩, hg | ⟨-, ⟨⟩⟩⟩ := h
  · simp only [jumpWhen, readParam_of_bad hc]
  · simp only [jumpWhen, readParam_ok_iff.mpr hy, readParam_of_bad hg]

theorem jumpWhen_error_iff :
    jumpWhen taken o c g s = .error e ↔
      ∃ x, e = .invalidAddress s.ip x ∧ (FirstBad s 1 [(.read, c), (.read, g)] x ∨
        ∃ y z, ReadsTo s c 1 y ∧ ReadsTo s g 2 z ∧ taken y = true ∧ z.toInt < 0 ∧ x = z.toInt) := by
  constructor
  · intro h
    cases hc : readParam c 1 s with
    | error e' =>
      obtain ⟨x, hb, rfl⟩ := readParam_error_iff.mp hc
      have hfb : FirstBad s 1 [(.read, c), (.read, g)] x := .inl hb
      rw [jumpWhen_of_firstBad hfb] at h
      cases h
      exact ⟨x, rfl, .inl hfb⟩
    | ok y =>
      have hy := readParam_ok_iff.mp hc
      cases hg : readParam g 2 s with
      | error e' =>
        obtain ⟨x, hb, rfl⟩ := readParam_error_iff.mp hg
        have hfb : FirstBad s 1 [(.read, c), (.read, g)] x := .inr ⟨⟨y, hy⟩, .inl hb⟩
        rw [jumpWhen_of_firstBad hfb] at h
        cases h
        exact ⟨x, rfl, .inl hfb⟩
      | ok z =>
        have hz := readParam_ok_iff.mp hg
        rw [jumpWhen_of_reads hy hz] at h
        split_ifs at h with ht hneg
        cases h
        exact ⟨_, rfl, .inr ⟨y, z, hy, hz, ht, hneg, rfl⟩⟩
  · rintro ⟨x, rfl, hfb | ⟨y, z, hy, hz, ht, hneg, rfl⟩⟩
    · exact jumpWhen_of_firstBad hfb
    · rw [jumpWhen_of_reads hy hz, if_pos ht, if_pos hneg]
      rfl

theorem isNonzero_iff : isNonzero v = true ↔ v.toInt ≠ 0 := decide_eq_true_iff

theorem isZero_iff : isZero v = true ↔ v.toInt = 0 := decide_eq_true_iff

/-- The faults of an instruction that is no jump are those of its parameters. -/
theorem exists_firstBad_iff (hn : ∀ x, ¬ NegativeTarget s i x) :
    (∃ x, FirstBad s 1 (paramsOf i) x ∧ e = .invalidAddress s.ip x) ↔
      ∃ x, e = .invalidAddress s.ip x ∧ (FirstBad s 1 (paramsOf i) x ∨ NegativeTarget s i x) := by
  simp only [hn, or_false, and_comm]

/-- An instruction that does not wait faults exactly at its first bad access. -/
theorem exec_fault_iff (hw : ¬ Waits s i) :
    exec i s = .fault e ↔
      ∃ x, e = .invalidAddress s.ip x ∧ (FirstBad s 1 (paramsOf i) x ∨ NegativeTarget s i x) := by
  cases i with
  | add a b d | mul a b d | lt a b d | eq a b d =>
    rw [← exists_firstBad_iff fun _ => id]
    exact finish_fault_iff.trans writeResult_error_iff
  | inp d =>
    obtain ⟨v, rest, hq⟩ : ∃ v rest, s.inq = v :: rest :=
      List.exists_cons_of_ne_nil fun hq => hw ⟨⟨d, rfl⟩, hq⟩
    have he : exec (.inp d) s = finish (takeInput d v rest s) := execInp_of_queued hq
    rw [← exists_firstBad_iff fun _ => id, he]
    exact finish_fault_iff.trans takeInput_error_iff
  | out a =>
    rw [← exists_firstBad_iff fun _ => id]
    exact finish_fault_iff.trans giveOutput_error_iff
  | arb a =>
    rw [← exists_firstBad_iff fun _ => id]
    exact finish_fault_iff.trans adjustBase_error_iff
  | jt c g =>
    refine (finish_fault_iff.trans jumpWhen_error_iff).trans ?_
    simp only [isNonzero_iff]
    rfl
  | jf c g =>
    refine (finish_fault_iff.trans jumpWhen_error_iff).trans ?_
    simp only [isZero_iff]
    rfl
  | halt =>
    rw [← exists_firstBad_iff fun _ => id]
    exact ⟨nofun, fun ⟨_, hx, _⟩ => nomatch hx⟩

theorem exec_not_refused (i : Instr) (s : State) (r : Refusal) : exec i s ≠ .refused r := by
  cases i with
  | halt => exact fun h => nomatch h
  | inp d =>
    cases hq : s.inq with
    | nil =>
      have he : exec (.inp d) s = _ := execInp_of_empty hq
      simp [he]
    | cons v rest =>
      have he : exec (.inp d) s = _ := execInp_of_queued hq
      rw [he]
      exact finish_not_refused
  | _ => exact finish_not_refused

/-- Settles O30: every instruction but HALT is one of five shared operations, and each of them
raises its first bad access. -/
theorem execFaultsExactlyAtTheFirstBadAccess : Obligations.ExecFaultsExactlyAtTheFirstBadAccess :=
  fun i s => ⟨fun hw _ => exec_fault_iff hw, exec_not_refused i s⟩

end Sys2Proof.Machine
end

section
/-! What each instruction does where its parameters resolve, and what it leaves unchanged. -/

namespace Sys2Proof.Machine

variable {s t u : State} {a b c d g m : Mode} {k p : Nat} {v r : Word} {n : Nat}
  {f : Word → Word → Word} {o : Operation} {q : List Word}

/-- The wrap changes an integer by a multiple of 2^64 (41_arithmetic.md R112). -/
theorem exists_toInt_wrap64_eq (n : Int) : ∃ k : Int, (wrap64 n).toInt = n + k * 2 ^ 64 := by
  refine ⟨-Int.bdiv n (2 ^ 64), ?_⟩
  have h := Int.bdiv_add_bmod n (2 ^ 64)
  rw [wrap64, BitVec.toInt_ofInt]
  omega

/-- Settles O22: both are four-cell instructions. -/
theorem sumAndProductAreExactThenWrapped : Obligations.SumAndProductAreExactThenWrapped :=
  ⟨fun _ _ _ _ _ _ _ hwf hx hy hp =>
    ⟨finish_writeResult_wroteCell sum64 .add hwf hx hy hp,
      finish_writeResult_wroteCell product64 .mul hwf hx hy hp⟩,
    exists_toInt_wrap64_eq⟩

theorem isNonzero_eq_false_iff : isNonzero v = false ↔ v.toInt = 0 := by
  simp [isNonzero]

theorem isZero_eq_false_iff : isZero v = false ↔ v.toInt ≠ 0 := by
  simp [isZero]

section Jump

variable {taken : Word → Bool} {x y : Word}

theorem finish_jumpWhen_taken (hx : ReadsTo s c 1 x) (hy : ReadsTo s g 2 y) (ht : taken x = true)
    (h0 : 0 ≤ y.toInt) : finish (jumpWhen taken o c g s) = .next (s.setIp y.toInt.toNat) := by
  rw [jumpWhen_of_reads hx hy, if_pos ht, if_neg (by omega)]
  rfl

theorem finish_jumpWhen_negative (hx : ReadsTo s c 1 x) (hy : ReadsTo s g 2 y)
    (ht : taken x = true) (h0 : y.toInt < 0) :
    finish (jumpWhen taken o c g s) = .fault (.invalidAddress s.ip y.toInt) := by
  rw [jumpWhen_of_reads hx hy, if_pos ht, if_pos h0]
  rfl

theorem finish_jumpWhen_untaken (hx : ReadsTo s c 1 x) (hy : ReadsTo s g 2 y)
    (ht : taken x = false) : finish (jumpWhen taken o c g s) = .next (advance o s) := by
  rw [jumpWhen_of_reads hx hy, ht]
  rfl

theorem finish_jumpWhen_bad_target {z : Int} (hx : ReadsTo s c 1 x)
    (hz : BadParam s .read g 2 z) :
    finish (jumpWhen taken o c g s) = .fault (.invalidAddress s.ip z) :=
  finish_fault_iff.mpr (jumpWhen_of_firstBad (.inr ⟨⟨x, hx⟩, .inl hz⟩))

end Jump

/-- Settles O24: JT and JF are the jump with their two conditions; that a target may lie beyond
memory is seen by the next fetch only. -/
theorem jumpTargetLaw : Obligations.JumpTargetLaw := by
  refine ⟨fun s c g x y hx hy => ?_, fun s c g x z hx hz =>
    ⟨finish_jumpWhen_bad_target hx hz, finish_jumpWhen_bad_target hx hz⟩, fun s y hs hlen => ?_⟩
  · exact ⟨fun h => finish_jumpWhen_taken hx hy (isNonzero_iff.mpr h),
      fun h => finish_jumpWhen_negative hx hy (isNonzero_iff.mpr h),
      fun h => finish_jumpWhen_untaken hx hy (isNonzero_eq_false_iff.mpr h),
      fun h => finish_jumpWhen_taken hx hy (isZero_iff.mpr h),
      fun h => finish_jumpWhen_negative hx hy (isZero_iff.mpr h),
      fun h => finish_jumpWhen_untaken hx hy (isZero_eq_false_iff.mpr h)⟩
  · have hs' : Executing (s.setIp y.toInt.toNat) := hs
    have hfetch : fetch Config.chosen (s.setIp y.toInt.toNat) =
        .error (.invalidAddress y.toInt.toNat y.toInt) := by
      have hle : (s.setIp y.toInt.toNat).mem.len ≤ (s.setIp y.toInt.toNat).ip := by
        simp only [State.setIp_mem, State.setIp_ip]
        omega
      rw [fetch_of_le hle, State.setIp_ip, Int.toNat_of_nonneg (by omega)]
    exact stepWith_of_fetch_error (activity_of_executing hs') hfetch

theorem exec_inp_of_bad {x : Int} (hq : s.inq ≠ []) (h : BadParam s .destination d 1 x) :
    exec (.inp d) s = .fault (.invalidAddress s.ip x) := by
  have hw : ¬ Waits s (.inp d) := fun hw => hq hw.2
  exact (exec_fault_iff hw).mpr ⟨x, rfl, .inl (firstBad_singleton.mpr h)⟩

/-- Settles O25: the queue is looked at before the destination. -/
theorem inSuspendsBeforeResolving : Obligations.InSuspendsBeforeResolving :=
  fun _ _ => ⟨execInp_of_empty, fun _ => exec_inp_of_bad⟩

theorem exec_inp_completes (hq : s.inq = v :: q) (hp : StoresAt s d 1 p) :
    exec (.inp d) s = .next (advance .inp ((s.setInq q).setMem (s.mem.store p v))) :=
  (execInp_of_queued hq).trans (finish_next_iff.mpr (takeInput_completes hp))

theorem WroteCell.of_setInq (h : WroteCell (s.setInq q) t p v n) : WroteCell s t p v n :=
  ⟨h.written, h.others, h.len, h.ip, h.rb, h.state, h.outq, h.fault⟩

/-- Settles O26: the store is that of the four-cell instructions, in the state with the head
taken. -/
theorem inTakesTheHeadOfTheQueue : Obligations.InTakesTheHeadOfTheQueue := by
  intro s d v rest p hwf hq hp
  have hwrote : WroteCell (s.setInq rest) _ p v Operation.inp.length :=
    wroteCell_advance_store .inp hwf
  exact ⟨_, exec_inp_completes hq hp, hwrote.of_setInq, by simp⟩

theorem exec_out_completes (h : ReadsTo s a 1 v) :
    exec (.out a) s = .next (advance .out (s.pushOutput v)) :=
  finish_next_iff.mpr (giveOutput_completes h)

theorem exec_arb_completes (h : ReadsTo s a 1 v) :
    exec (.arb a) s = .next (advance .arb (s.setRb (wrap64 (s.rb.toInt + v.toInt)))) :=
  finish_next_iff.mpr (adjustBase_completes h)

/-- Settles O27. -/
theorem outAppendsItsOperand : Obligations.OutAppendsItsOperand := fun _ _ _ => exec_out_completes

/-- Settles O28. -/
theorem arbAddsItsOperandToTheBase : Obligations.ArbAddsItsOperandToTheBase :=
  fun _ _ _ => exec_arb_completes

/-- Settles O31: the address a Relative parameter names is an integer sum, and both the operand and
the record have it unreduced. -/
theorem relativeAddressesDoNotWrap : Obligations.RelativeAddressesDoNotWrap := by
  intro s r hr
  have hbad : ∀ role, ¬ InMemory s (s.rb.toInt + r.toInt) →
      BadParam s role .relative 1 (s.rb.toInt + r.toInt) :=
    fun role hout => .inr ⟨r, hr, by simp, hout, rfl⟩
  refine ⟨fun hin => exec_out_completes ⟨r, hr, hin, rfl⟩, fun hout => ?_,
    fun hout hq => exec_inp_of_bad hq (hbad .destination hout)⟩
  have hw : ¬ Waits s (.out .relative) := fun ⟨⟨_, hd⟩, _⟩ => nomatch hd
  exact (exec_fault_iff hw).mpr ⟨_, rfl, .inl (firstBad_singleton.mpr (hbad .read hout))⟩

/-! ### Frames -/

theorem destParam_eq_of_storesAt {p' : Int} (hp : StoresAt s m k p) (h : destParam m k s = .ok p') :
    p' = p := by
  rw [destParam_of_storesAt hp] at h
  exact (Except.ok.inj h).symm

theorem frame_of_writeResult (h : finish (writeResult f o a b d s) = .next t) :
    t.rb = s.rb ∧ t.state = s.state ∧ t.inq = s.inq ∧ t.outq = s.outq ∧ t.fault = s.fault ∧
    t.mem.len = s.mem.len ∧
    ∀ p, destParam d 3 s = .ok p → ∀ q : Nat, (q : Int) ≠ p → t.mem.cell q = s.mem.cell q := by
  obtain ⟨x, y, p, -, -, hp, rfl⟩ := writeResult_ok (finish_next_iff.mp h)
  refine ⟨rfl, rfl, rfl, rfl, rfl, rfl, fun p' hp' q hq => Memory.cell_store_other ?_⟩
  rintro rfl
  exact hq (destParam_eq_of_storesAt hp hp').symm

/-- Settles O32: all four are `writeResult`, whatever they compute. -/
theorem frameOfTheFourCellInstructions : Obligations.FrameOfTheFourCellInstructions := by
  intro i a b d s t hi h
  simp only [List.mem_cons, List.not_mem_nil, or_false] at hi
  obtain rfl | rfl | rfl | rfl := hi <;> exact frame_of_writeResult h

/-- Settles O33: an IN that answers suspended or took a value. -/
theorem frameOfIn : Obligations.FrameOfIn := by
  intro d s t h
  obtain ⟨hq, rfl⟩ | ⟨v, rest, p, hq, hp, rfl⟩ := exec_next h
  · exact ⟨rfl, rfl, rfl, rfl, fun _ => ⟨rfl, rfl, rfl⟩, fun hne => absurd hq hne⟩
  · refine ⟨rfl, rfl, rfl, rfl, fun he => ?_, fun _ => ⟨rfl, fun p' hp' q hne => ?_⟩⟩
    · rw [hq] at he
      cases he
    · refine Memory.cell_store_other ?_
      rintro rfl
      exact hne (destParam_eq_of_storesAt hp hp').symm

theorem frame_of_jump {taken : Word → Bool} (h : finish (jumpWhen taken o c g s) = .next t) :
    t.mem = s.mem ∧ t.rb = s.rb ∧ t.state = s.state ∧ t.inq = s.inq ∧ t.outq = s.outq ∧
      t.fault = s.fault := by
  obtain ⟨x, y, -, -, ⟨-, -, rfl⟩ | ⟨-, rfl⟩⟩ := jumpWhen_ok (finish_next_iff.mp h) <;> simp

/-- Settles O34: the next state of each is written out by `exec_next`. -/
theorem frameOfTheInstructionsThatStoreNothing :
    Obligations.FrameOfTheInstructionsThatStoreNothing := by
  refine fun s t m g => ⟨fun h => ?_, fun h => ?_, frame_of_jump, frame_of_jump, fun h => ?_⟩
  · obtain ⟨v, -, rfl⟩ := exec_next h
    simp
  · obtain ⟨v, -, rfl⟩ := exec_next h
    simp
  · have ht : t = s.setState .halted := exec_next h
    simp [ht]

/-- Settles O36: both fetches read the cell through memory, whatever else the later state holds. -/
theorem laterFetchesSeeTheStore : Obligations.LaterFetchesSeeTheStore := by
  intro c s t u a v hwf hw hu
  obtain ⟨⟨h0, hlt⟩, rfl⟩ := memWrite_ok hw
  have hcell : u.mem.cell a.toNat = v := by
    rw [hu]
    exact Memory.cell_store_self hwf
  have hlen : u.mem.len = s.mem.len := by
    rw [hu]
    rfl
  constructor
  · intro hip
    have hlt' : u.ip < u.mem.len := by omega
    have hv : u.mem.cell u.ip = v := by rw [← hcell, ← hip, Int.toNat_natCast]
    refine ⟨fun i hd => fetch_ok_iff.mpr ⟨hlt', by rwa [hv]⟩, fun e hd => ?_⟩
    rw [fetch_of_refused hlt' (by rwa [hv]), hv]
  · intro k hk
    refine rawParam_ok_iff.mpr ⟨by omega, ?_⟩
    rw [← hcell, ← hk, Int.toNat_natCast]

end Sys2Proof.Machine
end

section
/-! What an instruction that answers changes, element by element. -/

namespace Sys2Proof.Machine

variable {c : Config} {i : Instr} {s t : State} {v : Word} {o : Option Word}

/-- The forms of the next state of an instruction, as far as the frame rules need them: the values
computed and the targets of jumps are left open (`exec_next` has them). -/
inductive Change (s : State) : Instr → State → Prop where
  | stored {i : Instr} {d : Mode} {p : Nat} (v : Word) (destination : i.destination = some d)
      (notInp : ∀ d, i ≠ .inp d) (stores : StoresAt s d i.modes.length p) :
      Change s i (advance i.operation (s.setMem (s.mem.store p v)))
  | suspended (d : Mode) (empty : s.inq = []) : Change s (.inp d) (s.setState .awaitingInput)
  | took {d : Mode} {v : Word} {rest : List Word} {p : Nat} (queued : s.inq = v :: rest)
      (stores : StoresAt s d 1 p) :
      Change s (.inp d) (advance .inp ((s.setInq rest).setMem (s.mem.store p v)))
  | gave {a : Mode} {v : Word} (reads : ReadsTo s a 1 v) :
      Change s (.out a) (advance .out (s.pushOutput v))
  | adjusted (a : Mode) (b : Word) : Change s (.arb a) (advance .arb (s.setRb b))
  | jumped {i : Instr} (jump : i.operation = .jt ∨ i.operation = .jf) (n : Nat) :
      Change s i (s.setIp n)
  | halted : Change s .halt (s.setState .halted)

theorem exec_change (h : exec i s = .next t) : Change s i t := by
  have h' := exec_next h
  cases i with
  | add a b d | mul a b d | lt a b d | eq a b d =>
    obtain ⟨x, y, p, -, -, hp, rfl⟩ := h'
    exact .stored _ rfl (fun _ => nofun) hp
  | inp d =>
    obtain ⟨hq, rfl⟩ | ⟨v, rest, p, hq, hp, rfl⟩ := h'
    · exact .suspended d hq
    · exact .took hq hp
  | out a =>
    obtain ⟨v, hv, rfl⟩ := h'
    exact .gave hv
  | arb a =>
    obtain ⟨v, -, rfl⟩ := h'
    exact .adjusted a _
  | jt c g =>
    obtain ⟨x, y, -, -, ⟨-, -, rfl⟩ | ⟨-, rfl⟩⟩ := h' <;> exact .jumped (.inl rfl) _
  | jf c g =>
    obtain ⟨x, y, -, -, ⟨-, -, rfl⟩ | ⟨-, rfl⟩⟩ := h' <;> exact .jumped (.inr rfl) _
  | halt =>
    obtain rfl : t = s.setState .halted := h'
    exact .halted

theorem exec_rb (h : exec i s = .next t) : t.rb = s.rb ∨ ∃ a, i = .arb a := by
  cases exec_change h with
  | adjusted a => exact .inr ⟨a, rfl⟩
  | _ => exact .inl rfl

theorem exec_inq (h : exec i s = .next t) :
    t.inq = s.inq ∨ ∃ v d, s.inq = v :: t.inq ∧ i = .inp d := by
  cases exec_change h with
  | took hq => exact .inr ⟨_, _, hq, rfl⟩
  | _ => exact .inl rfl

theorem exec_outq (h : exec i s = .next t) :
    t.outq = s.outq ∨ ∃ v a, t.outq = s.outq ++ [v] ∧ i = .out a ∧ ReadsTo s a 1 v := by
  cases exec_change h with
  | gave hv => exact .inr ⟨_, _, rfl, rfl, hv⟩
  | _ => exact .inl rfl

theorem exec_fault (h : exec i s = .next t) : t.fault = s.fault := by
  cases exec_change h <;> rfl

theorem exec_mem (h : exec i s = .next t) :
    t.mem = s.mem ∨ ∃ d p v, i.destination = some d ∧ StoresAt s d i.modes.length p ∧
      t.mem = s.mem.store p v := by
  cases exec_change h with
  | stored v hd _ hp => exact .inr ⟨_, _, v, hd, hp, rfl⟩
  | took _ hp => exact .inr ⟨_, _, _, rfl, hp, rfl⟩
  | _ => exact .inl rfl

/-- HALT and a suspending IN change `state` and nothing else, and no other instruction changes it.
-/
theorem exec_state_cases (h : exec i s = .next t) :
    (i = .halt ∧ t = s.setState .halted) ∨ (Waits s i ∧ t = s.setState .awaitingInput) ∨
      (i ≠ .halt ∧ ¬ Waits s i ∧ t.state = s.state) := by
  cases exec_change h with
  | halted => exact .inl ⟨rfl, rfl⟩
  | suspended d hq => exact .inr (.inl ⟨⟨⟨d, rfl⟩, hq⟩, rfl⟩)
  | stored v hd hi =>
    refine .inr (.inr ⟨?_, fun ⟨⟨d, hw⟩, _⟩ => hi d hw, rfl⟩)
    rintro rfl
    cases hd
  | took hq => exact .inr (.inr ⟨nofun, fun ⟨_, he⟩ => by simp [hq] at he, rfl⟩)
  | gave | adjusted => exact .inr (.inr ⟨nofun, (fun ⟨⟨_, hw⟩, _⟩ => nomatch hw), rfl⟩)
  | jumped hi =>
    refine .inr (.inr ⟨?_, fun ⟨⟨d, hw⟩, _⟩ => ?_, rfl⟩)
    · rintro rfl
      simp [Instr.operation] at hi
    · subst hw
      simp [Instr.operation] at hi

/-! ### The step's writes to each element -/

/-- `s` and `t` differ at most in the queues and the latch. -/
structure SameEngine (s t : State) : Prop where
  mem : t.mem = s.mem
  ip : t.ip = s.ip
  rb : t.rb = s.rb
  state : t.state = s.state

theorem sameEngine_of_enqueueInput (h : Driver.enqueueInput v s = .ok t) : SameEngine s t := by
  obtain ⟨-, ⟨-, rfl⟩ | ⟨-, rfl⟩⟩ := enqueueInput_ok h <;> exact ⟨rfl, rfl, rfl, rfl⟩

theorem sameEngine_of_dequeueOutput (h : Driver.dequeueOutput s = .ok (o, t)) : SameEngine s t := by
  obtain ⟨-, ⟨-, -, rfl⟩ | ⟨v, rest, -, -, rfl⟩⟩ := dequeueOutput_ok h <;>
    exact ⟨rfl, rfl, rfl, rfl⟩

/-- Settles O19: a step that changes `rb` executed an instruction, and only ARB changes `rb`. -/
theorem relativeBaseIsChangedOnlyByArb : Obligations.RelativeBaseIsChangedOnlyByArb := by
  refine ⟨fun s t h hne => ?_, fun s t v h => (sameEngine_of_enqueueInput h).rb,
    fun s t o h => (sameEngine_of_dequeueOutput h).rb⟩
  obtain ⟨-, rfl⟩ | ⟨i, -, hi, he⟩ := stepWith_next_cases h
  · exact absurd rfl hne
  · obtain heq | ⟨a, rfl⟩ := exec_rb he
    · exact absurd heq hne
    · exact ⟨a, hi⟩

/-- Settles O20: the queues of the next state are those of the one instruction executed, if any. -/
theorem stepMovesQueuesOnlyByInAndOut : Obligations.StepMovesQueuesOnlyByInAndOut := by
  intro s t h
  obtain ⟨-, rfl⟩ | ⟨i, -, hi, he⟩ := stepWith_next_cases h
  · exact ⟨.inl rfl, .inl rfl⟩
  · constructor
    · obtain heq | ⟨v, d, hq, rfl⟩ := exec_inq he
      · exact .inl heq
      · exact .inr ⟨v, d, hq, hi⟩
    · obtain heq | ⟨v, a, hq, rfl, hv⟩ := exec_outq he
      · exact .inl heq
      · exact .inr ⟨v, a, hq, hi, hv⟩

theorem step_mem (h : stepWith c s = .next t) :
    t.mem = s.mem ∨ ∃ i d p v, fetch c s = .ok i ∧ i.destination = some d ∧
      StoresAt s d i.modes.length p ∧ t.mem = s.mem.store p v := by
  obtain ⟨-, rfl⟩ | ⟨i, -, hi, he⟩ := stepWith_next_cases h
  · exact .inl rfl
  · obtain heq | ⟨d, p, v, hd, hp, heq⟩ := exec_mem he
    · exact .inl heq
    · exact .inr ⟨i, d, p, v, hi, hd, hp, heq⟩

/-- Settles O21: memory is left alone, or one store was made at the address the instruction's
destination resolves to. -/
theorem memoryIsWrittenOnlyAtDestinations : Obligations.MemoryIsWrittenOnlyAtDestinations := by
  refine ⟨fun s t h => ?_, fun s t v h => (sameEngine_of_enqueueInput h).mem,
    fun s t o h => (sameEngine_of_dequeueOutput h).mem⟩
  obtain heq | ⟨i, d, p, v, hi, hd, hp, heq⟩ := step_mem h
  · exact ⟨by rw [heq], fun hne => absurd heq hne, fun q hne => absurd (by rw [heq]) hne⟩
  · refine ⟨by rw [heq, Memory.store_len], fun _ => ⟨i, hi, by simp [hd]⟩, fun q hne => ?_⟩
    have hqp : q = p := by
      by_contra hn
      exact hne (by rw [heq, Memory.cell_store_other hn])
    exact ⟨i, d, hi, hd, hqp ▸ destParam_of_storesAt hp⟩

theorem activity_of_rest (hf : s.fault = none)
    (hs : s.state = .halted ∨ (s.state = .awaitingInput ∧ s.inq = [])) : activity s = .idle := by
  obtain hs | ⟨hs, hq⟩ := hs
  · exact activity_of_halted hf hs
  · simp only [activity, hf, hs, hq]

theorem step_of_rest (hs : s.state = .halted ∨ (s.state = .awaitingInput ∧ s.inq = []))
    (h : stepWith c s = .next t) : t = s := by
  obtain ⟨-, ht⟩ | ⟨i, ha, -⟩ := stepWith_next_cases h
  · exact ht
  · obtain ⟨-, -, hnh, hq⟩ := activity_execute ha
    obtain hs | ⟨hs, he⟩ := hs
    · exact absurd hs hnh
    · exact absurd he (hq hs)

theorem step_of_awake
    (hs : s.state = .notStarted ∨ s.state = .running ∨ (s.state = .awaitingInput ∧ s.inq ≠ []))
    (h : stepWith c s = .next t) :
    ∃ i, fetch c s = .ok i ∧ exec i (s.setState .running) = .next t := by
  obtain ⟨hidle, -⟩ | ⟨i, -, hi, he⟩ := stepWith_next_cases h
  · rw [activity_of_awake (activity_idle hidle).1 hs] at hidle
    cases hidle
  · exact ⟨i, hi, he⟩

/-- Settles O18: a step that executes answers the fetched instruction's next state, which has its
`ip` written out. -/
theorem instructionPointerWrites : Obligations.InstructionPointerWrites := by
  refine ⟨fun s t i hs hi h => ?_, fun s t hs h => by rw [step_of_rest hs h],
    fun s t v h => (sameEngine_of_enqueueInput h).ip,
    fun s t o h => (sameEngine_of_dequeueOutput h).ip⟩
  obtain ⟨i', hi', he⟩ := step_of_awake hs h
  obtain rfl : i' = i := Except.ok.inj (hi'.symm.trans hi)
  have h' := exec_next he
  cases i' with
  | add a b d | mul a b d | lt a b d | eq a b d =>
    obtain ⟨x, y, p, -, -, -, rfl⟩ := h'
    rfl
  | inp d =>
    obtain ⟨hq, rfl⟩ | ⟨v, rest, p, hq, -, rfl⟩ := h'
    · exact ⟨fun _ => rfl, fun hne => absurd hq hne⟩
    · exact ⟨fun (he : s.inq = []) => by simp [he] at hq, fun _ => rfl⟩
  | out a | arb a =>
    obtain ⟨v, -, rfl⟩ := h'
    rfl
  | jt c g =>
    obtain ⟨x, y, hx, hy, ⟨hc, h0, rfl⟩ | ⟨hc, rfl⟩⟩ := h'
    · exact ⟨x, y, hx, hy, .inl ⟨isNonzero_iff.mp hc, Int.toNat_of_nonneg h0⟩⟩
    · exact ⟨x, y, hx, hy, .inr ⟨isNonzero_eq_false_iff.mp hc, rfl⟩⟩
  | jf c g =>
    obtain ⟨x, y, hx, hy, ⟨hc, h0, rfl⟩ | ⟨hc, rfl⟩⟩ := h'
    · exact ⟨x, y, hx, hy, .inl ⟨isZero_iff.mp hc, Int.toNat_of_nonneg h0⟩⟩
    · exact ⟨x, y, hx, hy, .inr ⟨isZero_eq_false_iff.mp hc, rfl⟩⟩
  | halt =>
    obtain rfl : t = (s.setState .running).setState .halted := h'
    rfl

end Sys2Proof.Machine
end

section
/-! What a run returns, by its first step (40_engine.md R101, R102). -/

namespace Sys2Proof.Machine

variable {s t : State} {n : Nat} {r : Driver.Report}

theorem run_zero_ne_returned : Driver.run 0 s ≠ .returned r t := by
  unfold Driver.run Driver.runWith
  cases s.fault <;> exact nofun

theorem run_of_rest (h : step s = .next t) (hst : Driver.stops t.state = true) :
    Driver.run (n + 1) s = .returned .ok t := by
  rw [run_succ, h]
  exact if_pos hst

theorem run_of_next (h : step s = .next t) (hst : Driver.stops t.state = false) :
    Driver.run (n + 1) s = Driver.run n t := by
  rw [run_succ, h]
  exact if_neg (by simp [hst])

theorem run_of_fault {e : Fault} (h : step s = .fault e) :
    Driver.run (n + 1) s = .returned (.err e) (s.latch e) := by
  rw [run_succ, h]

theorem run_of_refused {e : Refusal} (h : step s = .refused e) :
    Driver.run (n + 1) s = .refused e := by
  rw [run_succ, h]

/-- A run returns at a first step that comes to rest or faults, or as it does after that step. -/
theorem run_succ_returned_iff : Driver.run (n + 1) s = .returned r t ↔
    (step s = .next t ∧ Driver.stops t.state = true ∧ r = .ok) ∨
    (∃ u, step s = .next u ∧ Driver.stops u.state = false ∧ Driver.run n u = .returned r t) ∨
    (∃ e, step s = .fault e ∧ r = .err e ∧ t = s.latch e) := by
  constructor
  · intro h
    cases hs : step s with
    | next u =>
      cases hst : Driver.stops u.state with
      | true =>
        rw [run_of_rest hs hst] at h
        cases h
        exact .inl ⟨rfl, hst, rfl⟩
      | false =>
        rw [run_of_next hs hst] at h
        exact .inr (.inl ⟨u, rfl, hst, h⟩)
    | fault e =>
      rw [run_of_fault hs] at h
      cases h
      exact .inr (.inr ⟨e, rfl, rfl, rfl⟩)
    | refused e =>
      rw [run_of_refused hs] at h
      cases h
  · rintro (⟨hs, hst, rfl⟩ | ⟨u, hs, hst, h⟩ | ⟨e, hs, rfl, rfl⟩)
    · exact run_of_rest hs hst
    · rw [run_of_next hs hst, h]
    · exact run_of_fault hs

end Sys2Proof.Machine
end

section
/-! The invariant of Safety.lean, and what it says of a waiting CORE (40_engine.md R95, R96). -/

namespace Sys2Proof.Machine

variable {c : Config} {s t : State}

/-- Settles O38: a new CORE has not started, so nothing is asked of the word at `ip`. -/
theorem constructionSatisfiesTheInvariant : Obligations.ConstructionSatisfiesTheInvariant :=
  fun P pad =>
  { memory := State.newWith_mem_wf _ P pad
    unfaulted := rfl
    fresh := fun _ => ⟨rfl, rfl, rfl⟩
    waiting := nofun
    stopped := nofun }

/-- Settles O37. -/
theorem resetSatisfiesTheInvariant : Obligations.ResetSatisfiesTheInvariant :=
  constructionSatisfiesTheInvariant [] false

theorem stepWith_next_fault (h : stepWith c s = .next t) : t.fault = none := by
  obtain ⟨ha, rfl⟩ | ⟨i, ha, -, he⟩ := stepWith_next_cases h
  · exact (activity_idle ha).1
  · rw [exec_fault he]
    exact (activity_execute ha).1

theorem stepWith_next_wf (hs : s.mem.wf = true) (h : stepWith c s = .next t) :
    t.mem.wf = true := by
  obtain heq | ⟨i, d, p, v, -, -, hp, heq⟩ := step_mem h
  · rw [heq, hs]
  · rw [heq, Memory.store_wf hs hp.inMemory]

/-- The invariant in the state that an executing step reaches: it is Running unless the instruction
was HALT or a suspending IN, which leave memory and `ip` as they are. -/
theorem inv_of_execute {i : Instr} (hwf : t.mem.wf = true) (hf : t.fault = none)
    (hi : fetch Config.chosen s = .ok i) (he : exec i (s.setState .running) = .next t) : t.Inv := by
  obtain ⟨rfl, rfl⟩ | ⟨⟨⟨d, rfl⟩, -⟩, rfl⟩ | ⟨-, -, hst⟩ := exec_state_cases he
  · exact ⟨hwf, hf, nofun, nofun, fun _ => by simpa using hi⟩
  · exact ⟨hwf, hf, nofun, fun _ => ⟨d, by simpa using hi⟩, nofun⟩
  · rw [State.setState_state] at hst
    exact ⟨hwf, hf, by simp [hst], by simp [hst], by simp [hst]⟩

/-- Settles O39: an idle step changes nothing, and an executing one reaches a state in which the
clauses about `state` hold whatever held before. -/
theorem stepKeepsTheInvariant : Obligations.StepKeepsTheInvariant := by
  intro s t hs h
  obtain ⟨-, rfl⟩ | ⟨i, -, hi, he⟩ := stepWith_next_cases h
  · exact hs
  · exact inv_of_execute (stepWith_next_wf hs.memory h) (stepWith_next_fault h) hi he

theorem State.Inv.pushInput (hs : s.Inv) (v : Word) : (s.pushInput v).Inv where
  memory := hs.memory
  unfaulted := hs.unfaulted
  fresh := hs.fresh
  waiting h := by simpa using hs.waiting h
  stopped h := by simpa using hs.stopped h

theorem State.Inv.setOutq_tail (hs : s.Inv) {v : Word} {rest : List Word}
    (hq : s.outq = v :: rest) : (s.setOutq rest).Inv where
  memory := hs.memory
  unfaulted := hs.unfaulted
  fresh h := by
    obtain ⟨-, -, ho⟩ := hs.fresh h
    rw [hq] at ho
    cases ho
  waiting h := by simpa using hs.waiting h
  stopped h := by simpa using hs.stopped h

theorem run_keeps_inv {n : Nat} (hs : s.Inv) (h : Driver.run n s = .returned .ok t) : t.Inv := by
  induction n generalizing s with
  | zero => exact absurd h run_zero_ne_returned
  | succ n ih =>
    obtain ⟨hu, -, -⟩ | ⟨u, hu, -, hrun⟩ | ⟨e, -, hr, -⟩ := run_succ_returned_iff.mp h
    · exact stepKeepsTheInvariant s t hs hu
    · exact ih (stepKeepsTheInvariant s u hs hu) hrun
    · cases hr

/-- Settles O40: neither queue decides what is fetched, and a run is a number of steps. -/
theorem transactionsKeepTheInvariant : Obligations.TransactionsKeepTheInvariant := by
  refine fun s hs => ⟨fun v t h => ?_, fun o t h => ?_, fun n t => run_keeps_inv hs⟩
  · obtain ⟨-, ⟨-, rfl⟩ | ⟨-, rfl⟩⟩ := enqueueInput_ok h
    exacts [hs, hs.pushInput v]
  · obtain ⟨-, ⟨-, -, rfl⟩ | ⟨v, rest, hq, -, rfl⟩⟩ := dequeueOutput_ok h
    exacts [hs, hs.setOutq_tail hq]

theorem stepRequest_of_fault {e : Fault} (h : step s = .fault e) :
    Driver.stepRequest s = .ok (.err e, s.latch e) := by
  have h' : stepWith Config.chosen s = .fault e := h
  simp only [Driver.stepRequest, Driver.stepRequestWith, h']

/-- Settles O16: by the invariant the word at `ip` is still an IN, and it is executed as by any
other step. -/
theorem awaitingStepCompletesThePendingIn : Obligations.AwaitingStepCompletesThePendingIn := by
  intro s hinv hs
  obtain ⟨d, hd⟩ := hinv.waiting hs
  refine ⟨fun hq => stepWith_of_idle (activity_of_rest hinv.unfaulted (.inr ⟨hs, hq⟩)),
    fun v rest hq => ?_⟩
  have ha := activity_of_awake hinv.unfaulted (.inr (.inr ⟨hs, by simp [hq]⟩))
  have hstep : step s = exec (.inp d) (s.setState .running) := stepWith_of_execute ha hd
  refine ⟨d, (fetch_ok_iff.mp hd).2, hstep, fun p hp => ?_⟩
  have hp' : StoresAt (s.setState .running) d 1 p := hp
  exact ⟨_, hstep.trans (exec_inp_completes hq hp'), rfl, rfl,
    Memory.cell_store_self hinv.memory, rfl⟩

/-- Settles O17: by the invariant a step in AwaitingInput is idle or executes an IN that takes a
value. -/
theorem stateTransitionsAreThoseOfTheTable : Obligations.StateTransitionsAreThoseOfTheTable := by
  refine ⟨fun s t hinv h => ⟨fun hs => step_of_rest (.inl hs) h, fun hs => ?_, fun hs => ?_⟩,
    fun s e h => ?_, fun s t v h => (sameEngine_of_enqueueInput h).state,
    fun s t o h => (sameEngine_of_dequeueOutput h).state⟩
  · by_cases hq : s.inq = []
    · exact .inl ⟨hq, step_of_rest (.inr ⟨hs, hq⟩) h⟩
    · obtain ⟨i, hi, he⟩ := step_of_awake (.inr (.inr ⟨hs, hq⟩)) h
      obtain ⟨d, hd⟩ := hinv.waiting hs
      obtain rfl : i = .inp d := Except.ok.inj (hi.symm.trans hd)
      obtain ⟨he', -⟩ | ⟨v, rest, p, -, -, rfl⟩ := exec_next he
      · exact absurd he' hq
      · exact .inr ⟨hq, rfl, rfl⟩
  · obtain ⟨i, hi, he⟩ := step_of_awake (hs.imp_right .inl) h
    exact ⟨i, hi, exec_state_cases he⟩
  · exact ⟨_, stepRequest_of_fault h, State.latch_fault e s⟩

end Sys2Proof.Machine
end

section
/-! The host transactions (46_host_interface.md R170 to R183): each transaction on one CORE, and
what a run returns. -/

namespace Sys2Proof.Machine

variable {c : Config} {s t u : State} {n m : Nat} {r : Driver.Report} {e : Fault} {v : Word}

theorem enqueueInput_of_halted (hf : s.fault = none) (hs : s.state = .halted) :
    Driver.enqueueInput v s = .ok s := by
  simp only [Driver.enqueueInput, hf, hs]

theorem enqueueInput_of_not_halted (hf : s.fault = none) (hs : s.state ≠ .halted) :
    Driver.enqueueInput v s = .ok (s.pushInput v) := by
  unfold Driver.enqueueInput
  rw [hf]
  cases hst : s.state with
  | halted => exact absurd hst hs
  | notStarted | running | awaitingInput => rfl

theorem enqueueInput_of_latched (h : s.fault = some e) :
    Driver.enqueueInput v s = .error .discarded := by
  simp only [Driver.enqueueInput, h]

/-- Settles O41. -/
theorem enqueueInputAppendsUnlessHalted : Obligations.EnqueueInputAppendsUnlessHalted := by
  refine fun s v => ⟨enqueueInput_of_halted, enqueueInput_of_not_halted, fun hf => ?_⟩
  obtain ⟨e, he⟩ := Option.ne_none_iff_exists'.mp hf
  exact enqueueInput_of_latched he

theorem dequeueOutput_of_nil (hf : s.fault = none) (hq : s.outq = []) :
    Driver.dequeueOutput s = .ok (none, s) := by
  simp only [Driver.dequeueOutput, hf, hq]

theorem dequeueOutput_of_cons {rest : List Word} (hf : s.fault = none) (hq : s.outq = v :: rest) :
    Driver.dequeueOutput s = .ok (some v, s.setOutq rest) := by
  simp only [Driver.dequeueOutput, hf, hq]

theorem dequeueOutput_of_latched (h : s.fault = some e) :
    Driver.dequeueOutput s = .error .discarded := by
  simp only [Driver.dequeueOutput, h]

/-- Settles O42. -/
theorem dequeueOutputTakesTheOldest : Obligations.DequeueOutputTakesTheOldest := by
  refine fun s => ⟨dequeueOutput_of_nil, fun v rest => dequeueOutput_of_cons, fun hf => ?_⟩
  obtain ⟨e, he⟩ := Option.ne_none_iff_exists'.mp hf
  exact dequeueOutput_of_latched he

theorem run_of_latched (h : s.fault = some e) (n : Nat) : Driver.run n s = .refused .discarded := by
  cases n with
  | zero => simp only [Driver.run, Driver.runWith, h]
  | succ n => exact run_of_refused (faultedCoreHasNoStep s e h)

/-- Settles O43: every transaction but inspect_memory looks at the latch first. -/
theorem faultedCoreRefusesTransactions : Obligations.FaultedCoreRefusesTransactions := by
  intro s e h
  have hstep : stepWith Config.chosen s = .refused .discarded := faultedCoreHasNoStep s e h
  refine ⟨fun _ => enqueueInput_of_latched h, dequeueOutput_of_latched h, run_of_latched h,
    ?_, ?_, ?_⟩
  · simp only [Driver.currentState, h]
  · simp only [Driver.clone, h]
  · simp only [Driver.stepRequest, Driver.stepRequestWith, hstep]

/-- Settles O45. -/
theorem inspectMemoryReadsOneCell : Obligations.InspectMemoryReadsOneCell := by
  intro s a hf
  have heq : Driver.inspectMemory a s =
      if s.mem.contains a then some (s.mem.cell a.toNat) else none := by
    simp only [Driver.inspectMemory, hf]
  rw [heq]
  refine ⟨fun h0 hlt => if_pos (contains_inMemory.mpr ⟨h0, hlt⟩), fun hout => if_neg ?_⟩
  exact mt contains_inMemory.mp (not_inMemory_iff.mpr hout)

/-- Settles O47: the first step is idle, and the state it answers is one in which a run stops. -/
theorem runAtRestIsANoOp : Obligations.RunAtRestIsANoOp := by
  intro n s hf hs
  exact run_of_rest (stepWith_of_idle (activity_of_rest hf hs))
    (stops_iff.mpr (hs.imp_right And.left))

theorem stepRequest_err (h : Driver.stepRequest s = .ok (.err e, t)) :
    step s = .fault e ∧ t = s.latch e := by
  unfold Driver.stepRequest Driver.stepRequestWith at h
  split at h
  · cases h
  · rename_i hs
    cases h
    exact ⟨hs, rfl⟩
  · cases h

/-- A run returns either at rest with nothing latched, or with the record it latched. -/
theorem run_returned_cases (h : Driver.run n s = .returned r t) :
    (r = .ok ∧ t.fault = none ∧ Driver.stops t.state = true) ∨
      ∃ e, r = .err e ∧ t.fault = some e := by
  induction n generalizing s with
  | zero => exact absurd h run_zero_ne_returned
  | succ n ih =>
    obtain ⟨hs, hst, rfl⟩ | ⟨u, -, -, hrun⟩ | ⟨e, -, rfl, rfl⟩ := run_succ_returned_iff.mp h
    · exact .inl ⟨rfl, stepWith_next_fault hs, hst⟩
    · exact ih hrun
    · exact .inr ⟨e, rfl, State.latch_fault e s⟩

/-- Settles O44: the latch holds the record, and a latched CORE has no step (as for O15). -/
theorem errorsAreLatched : Obligations.ErrorsAreLatched := by
  refine fun s t e => ⟨fun h => ⟨_, stepRequest_of_fault h, State.latch_fault e s⟩, fun h => ?_,
    fun n h => ?_⟩
  · obtain ⟨hs, rfl⟩ := stepRequest_err h
    exact ⟨hs, State.latch_fault e s, faultedCoreHasNoStep _ e (State.latch_fault e s)⟩
  · obtain ⟨hr, -⟩ | ⟨e', hr, hf⟩ := run_returned_cases h
    · cases hr
    · cases hr
      exact ⟨hf, faultedCoreHasNoStep t e hf⟩

/-- Settles O46: a step that answers latches nothing, so a run ends at rest or at a fault. -/
theorem runReturnsOnlyAtRestOrWithAnError : Obligations.RunReturnsOnlyAtRestOrWithAnError := by
  intro n s t r h
  refine (run_returned_cases h).imp_left fun ⟨hr, hf, hst⟩ => ⟨hr, hf, ?_⟩
  have hcur : Driver.currentState t = .ok t.state := by simp only [Driver.currentState, hf]
  rw [hcur]
  exact (stops_iff.mp hst).imp (congrArg _) (congrArg _)

/-- Settles O48: by induction on the steps the run takes, the longer watch taking the same. -/
theorem runReturnsTheSameHoweverLongWatched : Obligations.RunReturnsTheSameHoweverLongWatched := by
  intro n m s t r hnm h
  induction n generalizing s m with
  | zero => exact absurd h run_zero_ne_returned
  | succ n ih =>
    obtain ⟨m, rfl⟩ : ∃ k, m = k + 1 := ⟨m - 1, by omega⟩
    rw [run_succ_returned_iff] at h ⊢
    refine h.imp_right (Or.imp_left ?_)
    rintro ⟨u, hs, hst, hrun⟩
    exact ⟨u, hs, hst, ih m u (by omega) hrun⟩

theorem stepTimes_of_next (h : step s = .next t) (n : Nat) :
    stepTimes (n + 1) s = stepTimes n t := by
  rw [stepTimes_succ, h]

/-- Settles O49: by induction on the steps the run takes. -/
theorem runEqualsASequenceOfSteps : Obligations.RunEqualsASequenceOfSteps := by
  intro n s t h
  induction n generalizing s with
  | zero => exact absurd h run_zero_ne_returned
  | succ n ih =>
    obtain ⟨hs, hst, -⟩ | ⟨u, hs, hst, hrun⟩ | ⟨e, -, hr, -⟩ := run_succ_returned_iff.mp h
    · exact ⟨0, by omega, stepTimes_of_next hs 0, stops_iff.mp hst, nofun⟩
    · obtain ⟨k, hk, htimes, hrest, hbefore⟩ := ih u hrun
      refine ⟨k + 1, by omega, (stepTimes_of_next hs _).trans htimes, hrest, fun j hj => ?_⟩
      rw [stepTimes_of_next hs]
      cases j with
      | zero =>
        have hns : ¬ (u.state = .halted ∨ u.state = .awaitingInput) := by
          rw [← stops_iff]
          simp [hst]
        exact ⟨u, rfl, not_or.mp hns⟩
      | succ j => exact hbefore j (by omega)
    · cases hr

end Sys2Proof.Machine
end

section
/-! The queues and the engine: a value queued behind the others and a change of the Output Queue go
through a step (00_scope.md R5, 44_io.md R145, R146, 46_host_interface.md R177, R181). -/

namespace Sys2Proof.Machine

variable {c : Config} {i : Instr} {s t u : State} {m : Mode} {k n p : Nat} {v : Word}
  {q : List Word} {r : Driver.Report} {e : Fault} {x : Int}

/-- The CORE with both queues replaced: operands, the fetch and the frame do not look at them. -/
def State.withQueues (inq outq : List Word) (s : State) : State := (s.setInq inq).setOutq outq

theorem State.setOutq_eq_withQueues (q : List Word) (s : State) :
    s.setOutq q = s.withQueues (s.inq ++ []) q := by
  rw [List.append_nil]
  rfl

theorem ReadsTo.withQueues {qi qo : List Word} (h : ReadsTo s m k v) :
    ReadsTo (s.withQueues qi qo) m k v := h

theorem StoresAt.withQueues {qi qo : List Word} (h : StoresAt s m k p) :
    StoresAt (s.withQueues qi qo) m k p := h

/-- An instruction that outputs nothing appends the empty list to any Output Queue. -/
theorem exists_appended_nil {s' : State} {qi : List Word} (ho : t.outq = s.outq)
    (h : exec i s' = .next (t.withQueues qi q)) :
    ∃ o, t.outq = s.outq ++ o ∧ exec i s' = .next (t.withQueues qi (q ++ o)) :=
  ⟨[], by rw [ho, List.append_nil], by rwa [List.append_nil]⟩

/-- An instruction that does not wait does the same with values added behind its input, and appends
the same values to another Output Queue. -/
theorem exec_withQueues (h : exec i s = .next t) (hw : ¬ Waits s i) (later q : List Word) :
    ∃ o, t.outq = s.outq ++ o ∧
      exec i (s.withQueues (s.inq ++ later) q) =
        .next (t.withQueues (t.inq ++ later) (q ++ o)) := by
  have h' := exec_next h
  cases i with
  | add a b d | mul a b d | lt a b d | eq a b d =>
    obtain ⟨x, y, p, hx, hy, hp, rfl⟩ := h'
    exact exists_appended_nil rfl (finish_next_iff.mpr
      (writeResult_completes hx.withQueues hy.withQueues hp.withQueues))
  | inp d =>
    obtain ⟨hq, -⟩ | ⟨v, rest, p, hq, hp, rfl⟩ := h'
    · exact absurd ⟨⟨d, rfl⟩, hq⟩ hw
    · refine exists_appended_nil rfl ?_
      rw [hq]
      exact exec_inp_completes rfl hp.withQueues
  | out a =>
    obtain ⟨v, hv, rfl⟩ := h'
    exact ⟨[v], rfl, exec_out_completes hv.withQueues⟩
  | arb a =>
    obtain ⟨v, hv, rfl⟩ := h'
    exact exists_appended_nil rfl (exec_arb_completes hv.withQueues)
  | jt c g | jf c g =>
    obtain ⟨x, y, hx, hy, ⟨ht, h0, rfl⟩ | ⟨ht, rfl⟩⟩ := h'
    · exact exists_appended_nil rfl (finish_jumpWhen_taken hx.withQueues hy.withQueues ht h0)
    · exact exists_appended_nil rfl (finish_jumpWhen_untaken hx.withQueues hy.withQueues ht)
  | halt =>
    obtain rfl : t = s.setState .halted := h'
    exact exists_appended_nil rfl rfl

theorem exec_pushInput (h : exec i s = .next t) (hw : ¬ Waits s i) :
    exec i (s.pushInput v) = .next (t.pushInput v) := by
  obtain ⟨o, ho, he⟩ := exec_withQueues h hw [v] s.outq
  rwa [← ho] at he

theorem activity_execute_iff : activity s = .execute (s.setState .running) ↔
    s.fault = none ∧ s.state ≠ .halted ∧ (s.state = .awaitingInput → s.inq ≠ []) := by
  constructor
  · intro h
    obtain ⟨hf, -, hs⟩ := activity_execute h
    exact ⟨hf, hs⟩
  · rintro ⟨hf, hnh, hq⟩
    refine activity_of_awake hf ?_
    cases hs : s.state with
    | notStarted => exact .inl rfl
    | running => exact .inr (.inl rfl)
    | awaitingInput => exact .inr (.inr ⟨rfl, hq hs⟩)
    | halted => exact absurd hs hnh

theorem activity_pushInput (hf : s.fault = none) (hs : s.state ≠ .halted) :
    activity (s.pushInput v) = .execute ((s.pushInput v).setState .running) :=
  activity_execute_iff.mpr ⟨hf, hs, fun _ => by simp⟩

/-- With a value queued a CORE that is not halted executes the instruction at `ip`. -/
theorem step_pushInput_eq_exec (hf : s.fault = none) (hs : s.state ≠ .halted)
    (hi : fetch Config.chosen s = .ok i) :
    step (s.pushInput v) = exec i ((s.setState .running).pushInput v) :=
  stepWith_of_execute (activity_pushInput hf hs) (by rwa [fetch_pushInput])

/-- A step that does not come to rest is the same with a value queued behind the others. -/
theorem step_pushInput (h : step s = .next t) (hst : Driver.stops t.state = false) :
    step (s.pushInput v) = .next (t.pushInput v) := by
  have hns : ¬ (t.state = .halted ∨ t.state = .awaitingInput) := by
    rw [← stops_iff, hst]
    exact Bool.false_ne_true
  obtain ⟨ha, rfl⟩ | ⟨i, ha, hi, he⟩ := stepWith_next_cases h
  · exact absurd ((activity_idle ha).2.imp_right And.left) hns
  · obtain ⟨hf, hnh, -⟩ := activity_execute_iff.mp ha
    rw [step_pushInput_eq_exec hf hnh hi]
    refine exec_pushInput he fun hw => ?_
    obtain ⟨rfl, -⟩ | ⟨-, rfl⟩ | ⟨-, hnw, -⟩ := exec_state_cases he
    · exact nomatch hw.1
    · exact hns (.inr rfl)
    · exact hnw hw

/-- A value queued at the suspension finds the CORE where it would be, had the value been queued
before the step that suspended. -/
theorem step_pushInput_of_suspended (h : step s = .next t) (ht : t.state = .awaitingInput) :
    step (t.pushInput v) = step (s.pushInput v) := by
  obtain ⟨-, rfl⟩ | ⟨i, ha, hi, he⟩ := stepWith_next_cases h
  · rfl
  · obtain ⟨hf, hnh, -⟩ := activity_execute_iff.mp ha
    obtain ⟨-, rfl⟩ | ⟨-, rfl⟩ | ⟨-, -, hs⟩ := exec_state_cases he
    · cases ht
    · exact (step_pushInput_eq_exec (s := (s.setState .running).setState .awaitingInput) hf nofun
        (by simpa using hi)).trans (step_pushInput_eq_exec hf hnh hi).symm
    · rw [ht] at hs
      cases hs

/-- Runs with the same first step return the same, but for the unspecified state after an error. -/
theorem run_of_step_eq {s' : State} (hs : step s = step s')
    (h : Driver.run (n + 1) s = .returned r u) :
    ∃ u', Driver.run (n + 1) s' = .returned r u' ∧ (r = .ok → u' = u) := by
  obtain ⟨h1, hst, rfl⟩ | ⟨w, h1, hst, hrun⟩ | ⟨e, h1, rfl, -⟩ := run_succ_returned_iff.mp h <;>
    rw [hs] at h1
  · exact ⟨u, run_of_rest h1 hst, fun _ => rfl⟩
  · exact ⟨u, (run_of_next h1 hst).trans hrun, fun _ => rfl⟩
  · exact ⟨_, run_of_fault h1, nofun⟩

/-- A run that suspends, fed at the suspension, as one run fed at its beginning. -/
theorem run_fed_first {j : Nat} (h : Driver.run n s = .returned .ok t)
    (ht : t.state = .awaitingInput) (hrun : Driver.run (j + 1) (t.pushInput v) = .returned r u) :
    ∃ k u', Driver.run k (s.pushInput v) = .returned r u' ∧ (r = .ok → u' = u) := by
  induction n generalizing s with
  | zero => exact absurd h run_zero_ne_returned
  | succ n ih =>
    obtain ⟨hs, -, -⟩ | ⟨w, hs, hst, h⟩ | ⟨e, -, hr, -⟩ := run_succ_returned_iff.mp h
    · exact ⟨j + 1, run_of_step_eq (step_pushInput_of_suspended hs ht) hrun⟩
    · obtain ⟨k, u', hk, hu⟩ := ih h
      exact ⟨k + 1, u', (run_of_next (step_pushInput hs hst) hst).trans hk, hu⟩
    · cases hr

/-- A run that returns from a halted CORE leaves it halted. -/
theorem run_of_halted (hs : s.state = .halted) (h : Driver.run n s = .returned .ok t) : t = s := by
  cases n with
  | zero => exact absurd h run_zero_ne_returned
  | succ n =>
    obtain ⟨h1, -, -⟩ | ⟨w, h1, hst, -⟩ | ⟨e, -, hr, -⟩ := run_succ_returned_iff.mp h
    · exact step_of_rest (.inl hs) h1
    · rw [step_of_rest (.inl hs) h1, hs] at hst
      cases hst
    · cases hr

theorem run_returned_unfaulted (h : Driver.run n s = .returned r t) : s.fault = none := by
  cases hf : s.fault with
  | none => rfl
  | some e =>
    rw [run_of_latched hf n] at h
    cases h

/-- Settles O50: each step up to the suspension is the same with the value queued, and the step that
suspended then does what the resuming step does. -/
theorem feedingLaterEqualsFeedingFirst : Obligations.FeedingLaterEqualsFeedingFirst := by
  intro n m s t t' u v r hrun ht henq hrun'
  obtain ⟨-, ⟨hh, -⟩ | ⟨-, rfl⟩⟩ := enqueueInput_ok henq
  · rw [ht] at hh
    cases hh
  cases m with
  | zero => exact absurd hrun' run_zero_ne_returned
  | succ j =>
    have hf := run_returned_unfaulted hrun
    have hnh : s.state ≠ .halted := by
      intro hs
      rw [run_of_halted hs hrun, hs] at ht
      cases ht
    obtain ⟨k, u', hk, hu⟩ := run_fed_first hrun ht hrun'
    refine ⟨s.pushInput v, k, enqueueInput_of_not_halted hf hnh, fun hr => ?_, fun e hr => ?_⟩
    · rw [hk, hr, hu hr]
    · exact ⟨u', hr ▸ hk⟩

/-! ### The Output Queue -/

theorem firstBad_setOutq {params : List (Role × Mode)} :
    FirstBad (s.setOutq q) k params x ↔ FirstBad s k params x := by
  induction params generalizing k with
  | nil => exact Iff.rfl
  | cons head rest ih => exact or_congr Iff.rfl (and_congr Iff.rfl ih)

theorem negativeTarget_setOutq : NegativeTarget (s.setOutq q) i x ↔ NegativeTarget s i x := by
  cases i <;> exact Iff.rfl

theorem exec_of_waits (hw : Waits s i) : exec i s = .next (s.setState .awaitingInput) := by
  obtain ⟨⟨d, rfl⟩, hq⟩ := hw
  exact execInp_of_empty hq

theorem exec_setOutq (h : exec i s = .next t) (q : List Word) :
    ∃ o, t.outq = s.outq ++ o ∧ exec i (s.setOutq q) = .next (t.setOutq (q ++ o)) := by
  by_cases hw : Waits s i
  · have hw' : Waits (s.setOutq q) i := hw
    rw [exec_of_waits hw] at h
    cases h
    refine ⟨[], (List.append_nil _).symm, ?_⟩
    rw [exec_of_waits hw', List.append_nil]
    rfl
  · simpa only [State.setOutq_eq_withQueues] using exec_withQueues h hw [] q

theorem exec_fault_setOutq (h : exec i s = .fault e) (q : List Word) :
    exec i (s.setOutq q) = .fault e := by
  have hw : ¬ Waits s i := fun hw => by
    rw [exec_of_waits hw] at h
    cases h
  have hw' : ¬ Waits (s.setOutq q) i := hw
  rw [exec_fault_iff hw] at h
  simpa only [exec_fault_iff hw', State.setOutq_ip, firstBad_setOutq,
    negativeTarget_setOutq] using h

theorem stepWith_fault_cases (h : stepWith c s = .fault e) :
    activity s = .execute (s.setState .running) ∧ (fetch c s = .error e ∨
      ∃ i, fetch c s = .ok i ∧ exec i (s.setState .running) = .fault e) := by
  unfold stepWith at h
  split at h
  · cases h
  · cases h
  · rename_i u ha
    obtain ⟨-, rfl, -⟩ := activity_execute ha
    rw [fetch_setState] at h
    refine ⟨ha, ?_⟩
    split at h
    · rename_i e' hi
      cases h
      exact .inl hi
    · rename_i i hi
      exact .inr ⟨i, hi, h⟩

theorem activity_setOutq_execute (h : activity s = .execute (s.setState .running)) :
    activity (s.setOutq q) = .execute ((s.setOutq q).setState .running) := by
  have h' := activity_execute_iff.mp h
  exact activity_execute_iff.mpr h'

theorem activity_setOutq_idle (h : activity s = .idle) : activity (s.setOutq q) = .idle := by
  have h' := activity_idle h
  exact activity_of_rest h'.1 h'.2

/-- Settles O51: neither the request, nor the fetch, nor the instruction looks at the Output Queue;
OUT alone adds to it. -/
theorem outputQueueDoesNotInfluenceTheStep : Obligations.OutputQueueDoesNotInfluenceTheStep := by
  refine fun s q => ⟨fun t h => ?_, fun e h => ?_⟩
  · obtain ⟨ha, rfl⟩ | ⟨i, ha, hi, he⟩ := stepWith_next_cases h
    · refine ⟨[], (List.append_nil _).symm, ?_⟩
      rw [List.append_nil]
      exact stepWith_of_idle (activity_setOutq_idle ha)
    · obtain ⟨o, ho, he'⟩ := exec_setOutq he q
      exact ⟨o, ho, (stepWith_of_execute (activity_setOutq_execute ha)
        ((fetch_setOutq q).trans hi)).trans he'⟩
  · obtain ⟨ha, hi | ⟨i, hi, he⟩⟩ := stepWith_fault_cases h
    · exact stepWith_of_fetch_error (activity_setOutq_execute ha) ((fetch_setOutq q).trans hi)
    · exact (stepWith_of_execute (activity_setOutq_execute ha) ((fetch_setOutq q).trans hi)).trans
        (exec_fault_setOutq he q)

/-! ### The hand-off -/

theorem State.setOutq_self (h : s.outq = q) : s.setOutq q = s := by
  cases s
  cases h
  rfl

section HandOff

variable {a b : State}

theorem moveValues_of_empty (ha : a.fault = none) (hq : a.outq = []) :
    Driver.moveValues (n + 1) a b = .ok (a, b) := by
  simp only [Driver.moveValues, dequeueOutput_of_nil ha hq]

/-- One value is handed over, whatever the second CORE does with it. -/
theorem moveValues_of_cons {b' : State} (ha : a.fault = none) (hq : a.outq = v :: q)
    (hb : Driver.enqueueInput v b = .ok b') :
    Driver.moveValues (n + 1) a b = Driver.moveValues n (a.setOutq q) b' := by
  simp only [Driver.moveValues, dequeueOutput_of_cons ha hq, hb]

theorem moveValues_to_not_halted (hlen : a.outq.length < n) (ha : a.fault = none)
    (hb : b.fault = none) (hs : b.state ≠ .halted) :
    Driver.moveValues n a b = .ok (a.setOutq [], b.setInq (b.inq ++ a.outq)) := by
  induction n generalizing a b with
  | zero => omega
  | succ n ih =>
    cases hq : a.outq with
    | nil =>
      rw [moveValues_of_empty ha hq, State.setOutq_self hq, List.append_nil]
      rfl
    | cons v rest =>
      have hlen' : (a.setOutq rest).outq.length < n := by
        rw [hq, List.length_cons] at hlen
        exact Nat.lt_of_succ_lt_succ hlen
      rw [moveValues_of_cons ha hq (enqueueInput_of_not_halted hb hs),
        ih (b := b.pushInput v) hlen' ha hb hs, List.append_cons]
      rfl

theorem moveValues_to_halted (hlen : a.outq.length < n) (ha : a.fault = none)
    (hb : b.fault = none) (hs : b.state = .halted) :
    Driver.moveValues n a b = .ok (a.setOutq [], b) := by
  induction n generalizing a with
  | zero => omega
  | succ n ih =>
    cases hq : a.outq with
    | nil => rw [moveValues_of_empty ha hq, State.setOutq_self hq]
    | cons v rest =>
      have hlen' : (a.setOutq rest).outq.length < n := by
        rw [hq, List.length_cons] at hlen
        exact Nat.lt_of_succ_lt_succ hlen
      rw [moveValues_of_cons ha hq (enqueueInput_of_halted hb hs), ih hlen' ha]
      rfl

end HandOff

/-- Settles O52: the hand-off is allowed one move more than there are outputs, so it ends by finding
none. -/
theorem handOffMovesOutputsInOrder : Obligations.HandOffMovesOutputsInOrder :=
  fun a _ ha hb => ⟨moveValues_to_not_halted (Nat.lt_succ_self a.outq.length) ha hb,
    moveValues_to_halted (Nat.lt_succ_self a.outq.length) ha hb⟩

end Sys2Proof.Machine
end

section
/-! Several COREs, and runs in progress on them (10_state.md R31, 46_host_interface.md R170,
R176). -/

namespace Sys2Proof.Machine

variable {fleet : List Fleet.Member} {j k n m : Nat} {s t u : State} {x y : Fleet.Member}
  {r : Fleet.Request}

theorem Fleet.apply_send (h : fleet[k]? = some x) (hr : x.inRun = false) :
    Fleet.apply (.send k r) fleet = ((Fleet.perform fleet.length r x.core).1,
      fleet.set k (Fleet.perform fleet.length r x.core).2 ++ Fleet.added r x.core) := by
  simp [Fleet.apply, h, hr]

theorem Fleet.apply_send_busy (h : fleet[k]? = some x) (hr : x.inRun = true) :
    Fleet.apply (.send k r) fleet = (.busy, fleet) := by
  simp [Fleet.apply, h, hr]

theorem Fleet.getElem?_append_of_some {more : List Fleet.Member} (h : fleet[j]? = some x) :
    (fleet ++ more)[j]? = some x := by
  rw [List.getElem?_append_left (List.getElem?_eq_some_iff.mp h).1, h]

theorem Fleet.getElem?_set_of_ne (hne : j ≠ k) (h : fleet[j]? = some x) :
    (fleet.set k y)[j]? = some x := by
  rw [List.getElem?_set_ne hne.symm, h]

theorem Fleet.send_leaves_others (hne : j ≠ k) (h : fleet[j]? = some x) :
    (Fleet.apply (.send k r) fleet).2[j]? = some x := by
  cases hk : fleet[k]? with
  | none => simpa [Fleet.apply, hk] using h
  | some y =>
    cases hr : y.inRun with
    | true => rwa [Fleet.apply_send_busy hk hr]
    | false =>
      rw [Fleet.apply_send hk hr]
      exact Fleet.getElem?_append_of_some (Fleet.getElem?_set_of_ne hne h)

theorem Fleet.goOn_leaves_others (hne : j ≠ k) (h : fleet[j]? = some x) :
    (Fleet.apply (.goOn k n) fleet).2[j]? = some x := by
  cases hk : fleet[k]? with
  | none => simpa [Fleet.apply, hk] using h
  | some y =>
    obtain ⟨core, inRun⟩ := y
    cases inRun with
    | true =>
      rw [Fleet.apply_goOn hk]
      exact Fleet.getElem?_set_of_ne hne h
    | false => simpa [Fleet.apply, hk] using h

theorem Fleet.set_self (h : fleet[k]? = some x) : fleet.set k x = fleet := by
  obtain ⟨hk, rfl⟩ := List.getElem?_eq_some_iff.mp h
  exact List.set_getElem_self hk

theorem Fleet.apply_send_idle (h : fleet[k]? = some (Fleet.idle s)) :
    Fleet.apply (.send k r) fleet = ((Fleet.perform fleet.length r s).1,
      fleet.set k (Fleet.perform fleet.length r s).2 ++ Fleet.added r s) := Fleet.apply_send h rfl

theorem Fleet.clone_of_unfaulted (h : fleet[k]? = some (Fleet.idle s)) (hf : s.fault = none) :
    Fleet.apply (.send k .clone) fleet = (.made fleet.length, fleet ++ [Fleet.idle s]) := by
  have hclone : Driver.clone s = .ok s := by simp only [Driver.clone, hf]
  rw [Fleet.apply_send_idle h]
  simp only [Fleet.perform, Fleet.added, hclone, Except.map, Fleet.grant, Fleet.set_self h]

theorem Fleet.clone_of_faulted (h : fleet[k]? = some (Fleet.idle s)) (hf : s.fault ≠ none) :
    Fleet.apply (.send k .clone) fleet = (.refused .discarded, fleet) := by
  obtain ⟨e, he⟩ := Option.ne_none_iff_exists'.mp hf
  have hclone : Driver.clone s = .error .discarded := by simp only [Driver.clone, he]
  rw [Fleet.apply_send_idle h]
  simp only [Fleet.perform, Fleet.added, hclone, Except.map, Fleet.grant, Fleet.set_self h,
    List.append_nil]

/-- Settles O53: an event replaces the member at its own place and adds members at the end. -/
theorem transactionsOnOneCoreLeaveTheOthers : Obligations.TransactionsOnOneCoreLeaveTheOthers :=
  ⟨fun _ _ _ _ _ => Fleet.send_leaves_others, fun _ _ _ _ _ => Fleet.goOn_leaves_others,
    fun _ _ _ _ _ => Fleet.getElem?_append_of_some,
    fun _ _ _ h => ⟨Fleet.clone_of_unfaulted h, Fleet.clone_of_faulted h⟩⟩

/-- Settles O56: the mark is looked at before the request, and a watched run sets or clears it. -/
theorem noTransactionBeginsDuringARun : Obligations.NoTransactionBeginsDuringARun := by
  refine ⟨fun _ _ _ _ => Fleet.apply_send_busy, fun fleet k n s h => ⟨fun u hu => ?_,
    fun r u hu => ?_⟩⟩
  · rw [Fleet.apply_run h, hu]
    rfl
  · rw [Fleet.apply_run h, hu]
    rfl

theorem rest_or_awake (s : State) :
    (s.state = .halted ∨ (s.state = .awaitingInput ∧ s.inq = [])) ∨
      (s.state = .notStarted ∨ s.state = .running ∨ (s.state = .awaitingInput ∧ s.inq ≠ [])) := by
  cases s.state <;> simp [Classical.em]

theorem step_not_refused (hf : s.fault = none) (e : Refusal) : step s ≠ .refused e := by
  unfold step
  obtain hs | hs := rest_or_awake s
  · rw [stepWith_of_idle (activity_of_rest hf hs)]
    exact nofun
  · have ha := activity_of_awake hf hs
    cases hi : fetch Config.chosen s with
    | error e' =>
      rw [stepWith_of_fetch_error ha hi]
      exact nofun
    | ok i =>
      rw [stepWith_of_execute ha hi]
      exact exec_not_refused i _ e

theorem run_zero (hf : s.fault = none) : Driver.run 0 s = .unfinished s := by
  simp only [Driver.run, Driver.runWith, hf]

theorem run_not_refused (hf : s.fault = none) (e : Refusal) : Driver.run n s ≠ .refused e := by
  induction n generalizing s with
  | zero => simp [run_zero hf]
  | succ n ih =>
    cases hs : step s with
    | next t =>
      cases hst : Driver.stops t.state with
      | true => simp [run_of_rest hs hst]
      | false =>
        rw [run_of_next hs hst]
        exact ih (stepWith_next_fault hs)
    | fault e' => simp [run_of_fault hs]
    | refused e' => exact absurd hs (step_not_refused hf e')

theorem run_succ_unfinished (h : Driver.run (n + 1) s = .unfinished u) :
    ∃ t, step s = .next t ∧ Driver.stops t.state = false ∧ Driver.run n t = .unfinished u := by
  cases hs : step s with
  | next t =>
    cases hst : Driver.stops t.state with
    | true => simp [run_of_rest hs hst] at h
    | false => exact ⟨t, rfl, hst, by rwa [run_of_next hs hst] at h⟩
  | fault e => simp [run_of_fault hs] at h
  | refused e => simp [run_of_refused hs] at h

/-- A run that has not returned goes on from the state it has reached. -/
theorem run_add (h : Driver.run n s = .unfinished u) (m : Nat) :
    Driver.run (n + m) s = Driver.run m u := by
  induction n generalizing s with
  | zero =>
    have hf : s.fault = none := by
      cases hf : s.fault with
      | none => rfl
      | some e => simp [run_of_latched hf] at h
    rw [run_zero hf] at h
    cases h
    rw [Nat.zero_add]
  | succ n ih =>
    obtain ⟨t, hs, hst, hrun⟩ := run_succ_unfinished h
    rw [Nat.succ_add, run_of_next hs hst, ih hrun]

theorem watched_unfinished_iff {res : Driver.RunResult} :
    (Fleet.watched s res).1 = .unfinished ↔ ∃ u, res = .unfinished u := by
  cases res <;> simp [Fleet.watched]

/-- What the driver sees of a run depends on the state it began in only where the run is refused. -/
theorem watched_congr {res : Driver.RunResult} (h : ∀ e, res ≠ .refused e) :
    Fleet.watched s res = Fleet.watched t res := by
  cases res with
  | returned r v => rfl
  | unfinished v => rfl
  | refused e => exact absurd rfl (h e)

/-- Settles O57: the run goes on from the state it has reached, and has latched no fault there, so
going on is not refused. -/
theorem aRunWatchedInPartsIsOneRun : Obligations.ARunWatchedInPartsIsOneRun := by
  intro fleet k n m s h hun
  rw [Fleet.apply_run h] at hun ⊢
  obtain ⟨u, hu⟩ := watched_unfinished_iff.mp hun
  have hk : k < fleet.length := (List.getElem?_eq_some_iff.mp h).1
  have hmid : (fleet.set k (Fleet.watched s (Driver.run n s)).2)[k]? =
      some { core := u, inRun := true } := by
    rw [List.getElem?_set_self hk, hu]
    rfl
  have hw : Fleet.watched u (Driver.run m u) = Fleet.watched s (Driver.run (n + m) s) := by
    rw [run_add hu]
    exact watched_congr (run_not_refused (run_unfinished_fault hu))
  rw [Fleet.apply_goOn hmid, Fleet.apply_run h, hw, List.set_set]

end Sys2Proof.Machine
end

section
/-! The assembler's operands (30_encoding.md R77, R78): the words of offsets, and an instruction's
cells disassembled. -/

namespace Sys2Proof.Machine.Assembly

variable {table : List (String × Nat)} {c : Config} {v : Int} {w : Word} {ws : List Word}
  {a : Source} {d : Dest} {m : Mode}

theorem toInt_wrap64 (h0 : -(2 ^ 63) ≤ v) (h1 : v < 2 ^ 63) : (wrap64 v).toInt = v :=
  BitVec.toInt_ofInt_eq_self (by decide) h0 h1

theorem exists_intCell (h0 : -(2 ^ 63) ≤ v) (h1 : v < 2 ^ 63) :
    ∃ w, intCell v = .ok w ∧ w.toInt = v :=
  ⟨wrap64 v, intCell_ok_iff.mpr (toInt_wrap64 h0 h1), toInt_wrap64 h0 h1⟩

theorem signedCell_of_value {n : Number} (h : numberValue table n = .ok v) :
    signedCell table (.plus n) = intCell v ∧ signedCell table (.minus n) = intCell (-v) := by
  simp only [signedCell, h, and_self]

/-- The words of a number with either sign before it. -/
theorem exists_signedCells {n : Number} (h : numberValue table n = .ok v) (h0 : -(2 ^ 63) < v)
    (h1 : v < 2 ^ 63) :
    (∃ w, signedCell table (.plus n) = .ok w ∧ w.toInt = v) ∧
      (∃ w, signedCell table (.minus n) = .ok w ∧ w.toInt = -v) := by
  rw [(signedCell_of_value h).1, (signedCell_of_value h).2]
  exact ⟨exists_intCell (by omega) h1, exists_intCell (by omega) (by omega)⟩

/-- Settles O55. -/
theorem offsetWords : Obligations.OffsetWords := by
  refine ⟨fun table x a hx ha => exists_signedCells ?_ (by omega) (by omega),
    fun table v h0 h1 => exists_signedCells ?_ h0 h1⟩
  · simp only [numberValue, hx]
  · have hi : isI64 v = true := decide_eq_true (toInt_wrap64 h0.le h1)
    simp only [numberValue, hi, if_true]

/-! ### Printed operands -/

@[simp] theorem sourceMode_sourceOf (m : Mode) (w : Word) : sourceMode (sourceOf m w) = m := by
  cases m <;> rfl

theorem destMode_ne_immediate (d : Dest) : destMode d ≠ .immediate := by cases d <;> exact nofun

theorem destMode_destOf (hm : m ≠ .immediate) (w : Word) : destMode (destOf m w) = m := by
  cases m with
  | immediate => exact absurd rfl hm
  | position | relative => rfl

/-- A printed operand is read back as the word it was printed from. -/
@[simp] theorem signedCell_sourceOf (m : Mode) (w : Word) :
    signedCell table (sourceValue (sourceOf m w)) = .ok w := by
  cases m with
  | immediate | position => exact signedCell_plus_self table w
  | relative => exact signedCell_signedOf table w

@[simp] theorem signedCell_destOf (m : Mode) (w : Word) :
    signedCell table (destValue (destOf m w)) = .ok w := by
  cases m with
  | immediate | position => exact signedCell_plus_self table w
  | relative => exact signedCell_signedOf table w

/-- Without labels only a literal has a cell, and it is its value's. -/
theorem eq_literal_of_signedCell {n : Number} (h : signedCell [] (.plus n) = .ok w) :
    n = .literal w.toInt := by
  cases n with
  | literal v =>
    cases hv : isI64 v with
    | true =>
      have hcell : intCell v = .ok w := by simpa [signedCell, numberValue, hv] using h
      rw [intCell_ok_iff.mp hcell]
    | false => simp [signedCell, numberValue, hv] at h
  | label x => simp [signedCell, numberValue] at h

theorem eq_signedOf_of_signedCell {o : Signed} {x : Word} (ho : o = signedOf x)
    (h : signedCell table o = .ok w) : o = signedOf w := by
  rw [ho, signedCell_signedOf] at h
  cases h
  exact ho

theorem sourceOf_of_signedCell (h : signedCell [] (sourceValue a) = .ok w)
    (ho : ∀ o ∈ sourceOffsets a, ∃ x, o = signedOf x) : sourceOf (sourceMode a) w = a := by
  cases a with
  | immediate n => exact congrArg Source.immediate (eq_literal_of_signedCell h).symm
  | position n => exact congrArg Source.position (eq_literal_of_signedCell h).symm
  | relative o =>
    obtain ⟨x, hx⟩ := ho o (List.mem_singleton.mpr rfl)
    exact congrArg Source.relative (eq_signedOf_of_signedCell hx h).symm

theorem destOf_of_signedCell (h : signedCell [] (destValue d) = .ok w)
    (ho : ∀ o ∈ destOffsets d, ∃ x, o = signedOf x) : destOf (destMode d) w = d := by
  cases d with
  | position n => exact congrArg Dest.position (eq_literal_of_signedCell h).symm
  | relative o =>
    obtain ⟨x, hx⟩ := ho o (List.mem_singleton.mpr rfl)
    exact congrArg Dest.relative (eq_signedOf_of_signedCell hx h).symm

/-! ### Printed instructions -/

theorem signedCells_cons_ok_iff {o : Signed} {rest : List Signed} :
    signedCells table (o :: rest) = .ok ws ↔
      ∃ w tail, signedCell table o = .ok w ∧
        signedCells table rest = .ok tail ∧ ws = w :: tail := by
  simp only [signedCells]
  cases signedCell table o with
  | error e => simp
  | ok w =>
    cases h : signedCells table rest with
    | error e => simp
    | ok tail => simp [eq_comm]

theorem signedCells_nil_ok_iff : signedCells table [] = .ok ws ↔ ws = [] := by
  simp [signedCells, eq_comm]

theorem signedCells_length {os : List Signed} (h : signedCells table os = .ok ws) :
    ws.length = os.length := by
  induction os generalizing ws with
  | nil => simp [signedCells_nil_ok_iff.mp h]
  | cons o rest ih =>
    obtain ⟨w, tail, -, ht, rfl⟩ := signedCells_cons_ok_iff.mp h
    simp [ih ht]

theorem values_length (i : Insn) : (values i).length = (instr i).modes.length := by
  cases i <;> rfl

theorem instr_wellFormed (x : ImmWrite) (i : Insn) : (instr i).wellFormedUnder x = true := by
  cases i <;> simp [instr, Instr.wellFormedUnder, Instr.destination, destMode_ne_immediate]

theorem ne_immediate_of_wellFormed {i : Instr} (h : i.wellFormedUnder .fault = true)
    (hd : i.destination = some m) : m ≠ .immediate := by
  rintro rfl
  simp [Instr.wellFormedUnder, hd] at h

/-- An instruction that has an assembly, printed with its parameter words: it is an instruction of
the same operation and modes, and its operands are read back as these words. -/
theorem exists_insnOf {i : Instr} (hwf : i.wellFormedUnder .fault = true)
    (hlen : i.modes.length ≤ ws.length) :
    ∃ j, insnOf i ws = some j ∧ instr j = i ∧
      signedCells table (values j) = .ok (ws.take i.modes.length) := by
  cases i with
  | add a b d | mul a b d | lt a b d | eq a b d =>
    match ws, hlen with
    | x :: y :: z :: rest, _ =>
      have hd := ne_immediate_of_wellFormed hwf rfl
      exact ⟨_, rfl, by simp [instr, destMode_destOf hd],
        by simp [values, Instr.modes, signedCells]⟩
  | jt a b | jf a b =>
    match ws, hlen with
    | x :: y :: rest, _ =>
      exact ⟨_, rfl, by simp [instr], by simp [values, Instr.modes, signedCells]⟩
  | out a | arb a =>
    match ws, hlen with
    | x :: rest, _ =>
      exact ⟨_, rfl, by simp [instr], by simp [values, Instr.modes, signedCells]⟩
  | inp d =>
    match ws, hlen with
    | x :: rest, _ =>
      have hd := ne_immediate_of_wellFormed hwf rfl
      exact ⟨_, rfl, by simp [instr, destMode_destOf hd],
        by simp [values, Instr.modes, signedCells]⟩
  | halt => exact ⟨.halt, rfl, rfl, rfl⟩

/-- An instruction without labels, its offsets written as a listing writes them, is printed as it is
written. -/
theorem insnOf_instr {i : Insn} (h : signedCells [] (values i) = .ok ws)
    (ho : ∀ o ∈ offsets i, ∃ x, o = signedOf x) (more : List Word) :
    insnOf (instr i) (ws ++ more) = some i := by
  cases i with
  | add a b d | mul a b d | lt a b d | eq a b d =>
    simp only [values, signedCells_cons_ok_iff, signedCells_nil_ok_iff] at h
    obtain ⟨x, _, hx, ⟨y, _, hy, ⟨z, _, hz, rfl, rfl⟩, rfl⟩, rfl⟩ := h
    simp only [offsets, List.mem_append, or_imp, forall_and] at ho
    obtain ⟨⟨ha, hb⟩, hd⟩ := ho
    simp [instr, insnOf, sourceOf_of_signedCell hx ha, sourceOf_of_signedCell hy hb,
      destOf_of_signedCell hz hd]
  | jt a b | jf a b =>
    simp only [values, signedCells_cons_ok_iff, signedCells_nil_ok_iff] at h
    obtain ⟨x, _, hx, ⟨y, _, hy, rfl, rfl⟩, rfl⟩ := h
    simp only [offsets, List.mem_append, or_imp, forall_and] at ho
    obtain ⟨ha, hb⟩ := ho
    simp [instr, insnOf, sourceOf_of_signedCell hx ha, sourceOf_of_signedCell hy hb]
  | out a | arb a =>
    simp only [values, signedCells_cons_ok_iff, signedCells_nil_ok_iff] at h
    obtain ⟨x, _, hx, rfl, rfl⟩ := h
    simp [instr, insnOf, sourceOf_of_signedCell hx ho]
  | inp d =>
    simp only [values, signedCells_cons_ok_iff, signedCells_nil_ok_iff] at h
    obtain ⟨x, _, hx, rfl, rfl⟩ := h
    simp [instr, insnOf, destOf_of_signedCell hx ho]
  | halt => rfl

theorem itemCells_insn_ok_iff {i : Insn} :
    itemCells table (.insn i) = .ok ws ↔
      ∃ raws, signedCells table (values i) = .ok raws ∧ ws = encodeWord (instr i) :: raws := by
  simp only [itemCells]
  cases h : signedCells table (values i) with
  | error e => simp
  | ok raws =>
    have hlen : raws.length = (instr i).modes.length := by
      rw [signedCells_length h, values_length]
    simp [encode, ← hlen, eq_comm]

theorem modes_length (i : Instr) : i.operation.length = i.modes.length + 1 := by
  cases i <;> rfl

/-- The listing of a word that decodes and has its parameter words. -/
theorem disassembleOne_of_decoded {i : Instr} {j : Insn} {more : List Word}
    (hi : decodeWord c w = .ok i) (hj : insnOf i more = some j) :
    disassembleOne c w more =
      ({ item := .insn j, raw := if encodeWord (instr j) = w then none else some w },
        i.modes.length + 1) := by
  simp only [disassembleOne, hi, hj, modes_length]

/-- The cells of an instruction, disassembled with anything after them. -/
theorem disassembleOne_encodeWord {i : Insn} {raws : List Word} (more : List Word)
    (h : signedCells table (values i) = .ok raws) :
    ∃ j, insnOf (instr i) (raws ++ more) = some j ∧ instr j = instr i ∧
      signedCells [] (values j) = .ok raws ∧
      disassembleOne c (encodeWord (instr i)) (raws ++ more) =
        ({ item := .insn j, raw := none }, raws.length + 1) := by
  have hlen : raws.length = (instr i).modes.length := by
    rw [signedCells_length h, values_length]
  obtain ⟨j, hj, hij, hcells⟩ := exists_insnOf (table := []) (instr_wellFormed .fault i)
    (ws := raws ++ more) (by simp [hlen])
  refine ⟨j, hj, hij, by rwa [← hlen, List.take_left] at hcells, ?_⟩
  rw [disassembleOne_of_decoded (decodeWord_encodeWord (instr_wellFormed _ i)) hj, hij, if_pos rfl,
    hlen]

/-- Settles O54: the decoder gives back the encoded operation and modes (as for O7), and every
printed operand is read back as its word. -/
theorem disassemblyUndoesAssembly : Obligations.DisassemblyUndoesAssembly := by
  refine ⟨fun c table i ws more h => ?_, fun c w more e he => ?_,
    fun c w more i hi hwf hlen hne => ?_⟩
  · obtain ⟨raws, hraws, rfl⟩ := itemCells_insn_ok_iff.mp h
    obtain ⟨j, hj, hij, hcells, hdis⟩ := disassembleOne_encodeWord (c := c) more hraws
    refine ⟨_, raws, j, rfl, hdis, hij, itemCells_insn_ok_iff.mpr ⟨raws, hcells, by rw [hij]⟩, ?_⟩
    rintro rfl ho
    exact Option.some.inj (hj.symm.trans (insnOf_instr hraws ho more))
  · simp only [disassembleOne, he]
  · obtain ⟨j, hj, hij, -⟩ := exists_insnOf (table := []) hwf hlen
    rw [disassembleOne_of_decoded hi hj, hij, if_neg hne]

end Sys2Proof.Machine.Assembly
end
